-- ==== Sys2Proof/Word.lean ====
section
/-! DEFINITION. The shapes of the GOLAY24 core's data: vectors, matrices, command and response words.
Rules: 00_scope.md R7 (K, N, CMD_W, RSP_W) and R8 (notation). -/

namespace Sys2Proof

/-- `Vector(n)` of R8: n bits, element 0 first. It is held as the bus value `bus_n(v)` of R8, so element i is
bit n-1-i, the i-th bit counted from the most significant one (D3). -/
abbrev Vec (n : Nat) := BitVec n

/-- `Matrix(n,m)` of R8: n rows, row 0 first, each a `Vector(m)`. -/
abbrev Mat (n m : Nat) := Vector (Vec m) n

/-- A command word, `CMD_W` = 30 bits (R7, R47). -/
abbrev CmdWord := BitVec 30

/-- A response word, `RSP_W` = 27 bits (R7, R52). -/
abbrev RspWord := BitVec 27

/-- The 24 payload bits of a command or of a response (R47, R52). -/
abbrev Payload := BitVec 24

/-- An index of a row or a column of `B`: 0 to 11 (R31, C1). -/
abbrev Index := Fin 12

end Sys2Proof
end

