-- ==== Sys2Proof/Config.lean ====
section
/-! DEFINITION. What is fixed when an instance of the core is built (00_scope.md R7, 10_state.md R19 and R25).
No command, no reset and no host action changes it; State carries it so that a statement about every state is a
statement about every `B` and both settings of `COMPAT_FALLBACK` (log entries 1 and 2). -/

namespace Sys2Proof

/-- The static parameters of one instance (R7). `LAT` is read by no rule and `NUM_INSTANCES` is 1 here. -/
structure Config where
  /-- `B`, the structure block, the only constant that carries information (R11, R86). -/
  b : Mat 12 12
  /-- `COMPAT_FALLBACK` = 1 (R7, R111, R113). -/
  compatFallback : Bool
deriving DecidableEq, Repr

end Sys2Proof
end

