-- ==== Sys2Proof/Machine/Algebra.lean ====
section
/-! DEFINITION. The GF(2) primitives at fixed sizes (40_gf2_algebra.md R70 to R77, R80) and the order of bits on a
bus (00_scope.md R8). The checked forms with the errors of R71, R73 and R75 are in Machine/Checked.lean. -/

namespace Sys2Proof.Machine

/-- `v[i]` of R8: element i, counted from the first. -/
def elem {n : Nat} (v : Vec n) (i : Fin n) : Bool := v.getMsb i

/-- The vector with `v[i] = f i`. -/
def ofElems : {n : Nat} → (Fin n → Bool) → Vec n
  | 0, _ => 0#0
  | _ + 1, f => BitVec.cons (f 0) (ofElems fun i => f i.succ)

/-- `bus_n` of R8. A `Vec` is held as its bus value, so nothing moves; that element i is bus bit n-1-i is `elem`. -/
def busOf {n : Nat} (v : Vec n) : BitVec n := v

/-- `vec_n` of R8, the inverse of `bus_n`. -/
def vecOf {n : Nat} (w : BitVec n) : Vec n := w

/-- The XOR-reduction of a list of bits (R70); of the empty list it is 0. -/
def xorReduce (l : List Bool) : Bool := l.foldr xor false

/-- `row_i(A)` (R8). -/
def row {n m : Nat} (i : Fin n) (A : Mat n m) : Vec m := A[i]

/-- `A[i][k]` (R8). -/
def entry {n m : Nat} (A : Mat n m) (i : Fin n) (k : Fin m) : Bool := elem (row i A) k

/-- The matrix with `A[i][k] = f i k`. -/
def ofEntries {n m : Nat} (f : Fin n → Fin m → Bool) : Mat n m := Vector.ofFn fun i => ofElems (f i)

/-- `v · C` for a row vector `v` (R71): `(v · C)[k] = XOR over t of (v[t] AND C[t][k])`. -/
def vecMul {n q : Nat} (v : Vec n) (C : Mat n q) : Vec q :=
  ofElems fun k => xorReduce ((List.finRange n).map fun t => elem v t && entry C t k)

/-- `A · C` (R71). -/
def matMul {n m q : Nat} (A : Mat n m) (C : Mat m q) : Mat n q :=
  ofEntries fun i k => xorReduce ((List.finRange m).map fun t => entry A i t && entry C t k)

/-- `transpose(A)` (R72). -/
def transpose {n m : Nat} (A : Mat n m) : Mat m n := ofEntries fun k i => entry A i k

/-- `[a | b]` on vectors (R80). -/
def concat {n m : Nat} (a : Vec n) (b : Vec m) : Vec (n + m) := a ++ b

/-- `[A | C]` on matrices of equal row count (R73). -/
def hconcat {n m q : Nat} (A : Mat n m) (C : Mat n q) : Mat n (m + q) :=
  Vector.ofFn fun i => concat (row i A) (row i C)

/-- `column_k(A)`, read top to bottom (R74). -/
def column {n m : Nat} (k : Fin m) (A : Mat n m) : Vec n := ofElems fun i => entry A i k

/-- `a XOR b` on vectors of equal length (R75). -/
def vecXor {n : Nat} (a b : Vec n) : Vec n := a ^^^ b

/-- `weight(v)`: the number of indices i with `v[i] = 1` (R76). -/
def weight {n : Nat} (v : Vec n) : Nat := (List.finRange n).countP fun i => elem v i

/-- `0^n` (R8). -/
def zeroVec (n : Nat) : Vec n := 0#n

/-- The all-zero matrix. -/
def zeroMat (n m : Nat) : Mat n m := Vector.replicate n (zeroVec m)

/-- `unit_vector(j)`: element j is 1, all others 0 (R8, R80). -/
def unitVector {n : Nat} (j : Fin n) : Vec n := ofElems fun i => decide (i = j)

/-- The first 12 bits `c[0..12)` of a `Vector(24)` (R80). -/
def firstHalf (c : Vec 24) : Vec 12 := ofElems fun i => elem c (Fin.castAdd 12 i)

/-- The second half `c[12..24)` of a `Vector(24)` (R8). -/
def secondHalf (c : Vec 24) : Vec 12 := ofElems fun i => elem c (Fin.natAdd 12 i)

/-- A square matrix is symmetric when it equals its transpose (R72, R87). -/
abbrev IsSymmetric {n : Nat} (A : Mat n n) : Prop := transpose A = A

end Sys2Proof.Machine
end

