-- ==== Sys2Proof/Machine/Constants.lean ====
section
/-! DEFINITION. The code constants `I`, `B`, `G`, `Ht` (41_code_constants.md R85 to R91), the static check of R92, and the four weight
thresholds (00_scope.md R7, 43_decode.md R115). -/

namespace Sys2Proof.Machine

/-- `I`, the 12×12 identity (R85). -/
def identity : Mat 12 12 := ofEntries fun i k => decide (i = k)

/-- `G = [I | B]` (R90). -/
def generator (b : Mat 12 12) : Mat 12 24 := hconcat identity b

/-- `Ht = transpose([B | I])` (R91). -/
def parityCheckT (b : Mat 12 12) : Mat 24 12 := transpose (hconcat b identity)

/-- `G · Ht`, the product of the fundamental invariant (R92). -/
def invariantProduct (b : Mat 12 12) : Mat 12 12 := matMul (generator b) (parityCheckT b)

/-- The check R92 requires of every `B`: `G · Ht` is the zero matrix. It is made once, when an instance is built or in
its test suite (70_reset_and_hazards.md R193); no step of the core makes it, and the commands are defined for a `B`
that fails it. -/
def staticCheck (b : Mat 12 12) : Bool := decide (invariantProduct b = zeroMat 12 12)

/-- `B_GK`, the candidate value of `B` in R89, rows 0 to 11 as their bus values. The spec marks it as general
knowledge and makes it the default of the open parameter (D12); log entry 1. -/
def structureBlockGK : Mat 12 12 :=
  #v[0xDC5#12, 0xB8B#12, 0x717#12, 0xE2D#12, 0xC5B#12, 0x8B7#12,
     0x16F#12, 0x2DD#12, 0x5B9#12, 0xB71#12, 0x6E3#12, 0xFFE#12]

/-- The default instantiation of R7: `B` = `B_GK`, `COMPAT_FALLBACK` = 0. -/
def defaultConfig : Config := { b := structureBlockGK, compatFallback := false }

/-- `T_DIRECT` (R7, R103). -/
abbrev thresholdDirect : Nat := 3

/-- `T_RIGHT` (R7, R104). -/
abbrev thresholdRight : Nat := 2

/-- `T_DIRECTLEFT` (R7, R109). -/
abbrev thresholdDirectLeft : Nat := 3

/-- `T_LEFT` (R7, R110). -/
abbrev thresholdLeft : Nat := 2

end Sys2Proof.Machine
end

