-- ==== Sys2Proof/Syntax.lean ====
section
/-! DEFINITION. The commands of GOLAY24-CMD version 1 (00_scope.md R2), one constructor per row of
spec/opcode_table.json. -/

namespace Sys2Proof

/-- The values of the `OP` field and of the working value `op` (30_encoding.md R48, 10_state.md R12). -/
inductive Op where
  | enc
  | dec
deriving DecidableEq, Repr

/-- A command in the general textual form of 30_encoding.md R60: the operation, the declared operand length `LEN`
and the 24 bits of `PAYLOAD` (R47). A command whose `LEN` is not the one its operation requires is still a command:
the core answers it with `INVALID_LENGTH` (R57, R58). -/
inductive Instr where
  /-- Row `ENC`. -/
  | enc (len : BitVec 5) (payload : Payload)
  /-- Row `DEC`. -/
  | dec (len : BitVec 5) (payload : Payload)
deriving DecidableEq, Repr

/-- Why a number is not read as a command word. -/
inductive DecodeReject where
  /-- A bit above bit 29 is set: a command word has 30 bits (R47) and no other form exists (R59). -/
  | widerThanCommandWord
deriving DecidableEq, Repr

end Sys2Proof
end

