-- ==== Sys2Proof/Machine/State.lean ====
section
/-! DEFINITION. The state of one GOLAY24 core and of its pins (10_state.md R11 to R25, 30_encoding.md R45). -/

namespace Sys2Proof.Machine

/-- The values of `phase` (R17): the source's states of the decoder, then the four this spec adds. -/
inductive Phase where
  | computeSyndrome
  | direct
  | searchRight
  | exactlyOneMatch
  | multipleMatches
  | noMatch
  | computeSyndrome2
  | directLeft
  | searchLeft
  | exhausted
  | uncorrectable
  | correction
  | idle
  | checkLength
  | encode
  | respond
deriving DecidableEq, Repr

/-- The outcomes of a command (30_encoding.md R53, 60_exceptions.md R160). Codes 6 and 7 are unassigned and never
produced, so they have no name here. -/
inductive Status where
  | ok
  | uncorrectable
  | invalidLength
  | dimensionMismatch
  | rowCountMismatch
  | lengthMismatch
deriving DecidableEq, Repr

/-- The kinds that `raise` takes (00_scope.md R8). `Uncorrectable` is not raised: it is an outcome (R112). -/
inductive ErrorKind where
  | invalidLength
  | dimensionMismatch
  | rowCountMismatch
  | lengthMismatch
deriving DecidableEq, Repr

/-- The input pins of R45 at one rising edge of `clk`. The host drives them; no step of the core writes them. -/
structure Pins where
  rst : Bool
  cmdValid : Bool
  cmd : CmdWord
  rspReady : Bool
deriving DecidableEq, Repr

/-- The working values of the command in flight (R12), under the spec's names; `busy` and `phase`, which R12 lists
with them, stand in `State`. -/
structure Work where
  op : Op
  len : BitVec 5
  payload : Payload
  data : Vec 12
  codeword : Vec 24
  received : Vec 24
  s : Vec 12
  sj : Vector (Vec 12) 12
  /-- The set `M` of matching column indices, as the increasing list of its elements. -/
  M : List Index
  s2 : Vec 12
  weight2 : Nat
  j : Index
  t : Vec 12
  error : Vec 24
  corrected : Vec 24
  status : Status
  out : Payload
deriving DecidableEq, Repr

/-- The machine: the instance's constants (R11, R19), the input pins (R45), the control state `busy`, `phase`,
`rsp_valid` (R12, R46) and the working values (R12). `I`, `G` and `Ht` are wiring over `config.b` (R11), `cmd_ready`
and `rsp` are wiring over the rest (R45, R52): see Machine/Constants.lean and Machine/Ops.lean. -/
structure State where
  config : Config
  pins : Pins
  busy : Bool
  phase : Phase
  rspValid : Bool
  work : Work
deriving DecidableEq, Repr

/-- Why a step of the machine stops. No command's meaning raises either; no run reaches either once reset has been
applied. -/
inductive Fault where
  /-- Raised by `advance`, and so by `step`: `busy` = 1 while `phase` = `Idle`. Only power-on before the first reset
  could leave that, and the spec gives the core no behaviour there (70_reset_and_hazards.md R193). Safe: the model
  stops where the hardware would go on in some way. Log entry 8. -/
  | phaseUndefined
  /-- Raised by `advance`, and so by `step`: `phase` = `ExactlyOneMatch` and `M` has not one element, or `phase` =
  `MultipleMatches` and `M` has fewer than two. As above, only power-on could leave that. Safe. Log entry 8. -/
  | matchSetUndefined
deriving DecidableEq, Repr

/-- Why an instruction has no meaning. -/
inductive Refusal where
  /-- Raised by an arm of `exec` for an instruction without a meaning; no arm does. Safe. -/
  | notModelled (mnemonic : String)
deriving DecidableEq, Repr

/-- The working values where the spec gives none: after reset and between commands (R12 "discarded", R23
"unspecified"). DESIGN CHOICE, log entry 3. No step reads one before a step of the same command has written it. -/
def Work.initial : Work where
  op := .enc
  len := 0
  payload := 0
  data := 0
  codeword := 0
  received := 0
  s := 0
  sj := Vector.replicate 12 0
  M := []
  s2 := 0
  weight2 := 0
  j := 0
  t := 0
  error := 0
  corrected := 0
  status := .ok
  out := 0

/-- The single idle state of an instance (R24): `busy` = 0, `phase` = `Idle`, `rsp_valid` = 0 (R23, R190). -/
def State.idleWith (config : Config) (pins : Pins) : State where
  config := config
  pins := pins
  busy := false
  phase := .idle
  rspValid := false
  work := Work.initial

/-- The pins of a host that does nothing. DESIGN CHOICE, log entry 5. -/
def Pins.quiet : Pins where
  rst := false
  cmdValid := false
  cmd := 0
  rspReady := false

/-- The machine right after reset (R23, R190), built with the default parameters of R7. -/
def State.reset : State := State.idleWith defaultConfig Pins.quiet

end Sys2Proof.Machine
end

