-- ==== Sys2Proof/Machine/Flags.lean ====
section
/-! DEFINITION. The one flag-like value of the core, the `STATUS` of a response (10_state.md R18, 30_encoding.md R52
and R53). -/

namespace Sys2Proof.Machine

/-- The `STATUS` codes of R53. -/
def statusCode : Status → BitVec 3
  | .ok => 0
  | .uncorrectable => 1
  | .invalidLength => 2
  | .dimensionMismatch => 3
  | .rowCountMismatch => 4
  | .lengthMismatch => 5

/-- The status that reports a raised kind (60_exceptions.md R160, R165). -/
def kindStatus : ErrorKind → Status
  | .invalidLength => .invalidLength
  | .dimensionMismatch => .dimensionMismatch
  | .rowCountMismatch => .rowCountMismatch
  | .lengthMismatch => .lengthMismatch

/-- The response word of R52: `rsp[26:24] = status`, `rsp[23:0] = out`. -/
def packResponse (status : Status) (out : Payload) : RspWord := statusCode status ++ out

end Sys2Proof.Machine
end

