-- ==== Sys2Proof/Machine/Operands.lean ====
section
/-! DEFINITION. Operand assembly and the layout of results on the payload (30_encoding.md R50, R51, R54, R55). -/

namespace Sys2Proof.Machine

/-- R50: `data = vec_12(payload[11:0])`; `payload[23:12]` is ignored. -/
def dataOperand (payload : Payload) : Vec 12 := vecOf (payload.extractLsb' 0 12)

/-- R51: `received = vec_24(payload[23:0])`. -/
def receivedOperand (payload : Payload) : Vec 24 := vecOf payload

/-- R54: the payload of an `OK` response of `ENC`, `bus_24(codeword)`. -/
def encPayload (codeword : Vec 24) : Payload := busOf codeword

/-- R55: the payload of an `OK` response of `DEC`: `bus_12(corrected[0..12))` below 12 zero bits. -/
def decPayload (corrected : Vec 24) : Payload := (busOf (firstHalf corrected)).setWidth 24

end Sys2Proof.Machine
end

