-- ==== Sys2Proof/Machine/Ops.lean ====
section
/-! DEFINITION. The operations every command shares: the output pins, accepting a command, offering a response,
raising an error, giving a response and the reset event. -/

namespace Sys2Proof.Machine

/-- `cmd_ready` = NOT `busy` AND NOT `rst` (30_encoding.md R45). -/
def State.cmdReady (s : State) : Bool := !s.busy && !s.pins.rst

/-- `rsp` (R52). -/
def State.rsp (s : State) : RspWord := packResponse s.work.status s.work.out

/-- `phase <- p`. -/
def goto (p : Phase) (s : State) : State := { s with phase := p }

/-- A command is accepted (R46): `busy <- 1`, the fields are latched, and the length test comes next (R117). -/
def accept (op : Op) (len : BitVec 5) (payload : Payload) (s : State) : State :=
  { s with busy := true, phase := .checkLength,
           work := { s.work with op := op, len := len, payload := payload } }

/-- `status` and `out` are set and the response is offered: `phase <- Respond`, `rsp_valid` = 1 (R46, R117). -/
def respondWith (status : Status) (out : Payload) (s : State) : State :=
  { s with phase := .respond, rspValid := true, work := { s.work with status := status, out := out } }

/-- `raise <Kind>`, the analogue of trap entry (60_exceptions.md R165): the status is the kind's code, the payload
is 0, the response is offered; nothing is saved and control goes nowhere. -/
def raiseKind (k : ErrorKind) (s : State) : State := respondWith (kindStatus k) 0 s

/-- The response is given, the analogue of trap return (30_encoding.md R46, 60_exceptions.md R170): `rsp_valid`
returns to 0, `busy <- 0`, `phase <- Idle`, and the working values are discarded (10_state.md R12; log entry 4). -/
def giveResponse (s : State) : State :=
  { s with busy := false, phase := .idle, rspValid := false, work := Work.initial }

/-- The reset event (70_reset_and_hazards.md R190): `busy <- 0`, `phase <- Idle`, `rsp_valid <- 0`; the command in
flight is dropped with its working values (log entry 4); the constants are untouched. -/
def resetEvent (s : State) : State :=
  { s with busy := false, phase := .idle, rspValid := false, work := Work.initial }

/-- `Respond` with `rsp_valid` = 0 is the wait of `LAT` cycles (R46): the response is now offered. The model's own
steps offer the response in the step that computes it, so no run waits here (log entry 6). -/
def offerResponse (s : State) : State := { s with rspValid := true }

end Sys2Proof.Machine
end

