-- ==== Sys2Proof/WellFormed.lean ====
section
/-! DEFINITION. Which commands are well formed: those whose declared length is the one the operation requires
(30_encoding.md R49, R57). -/

namespace Sys2Proof

/-- The length each operation requires: 12 for `ENC`, 24 for `DEC` (R49). -/
def requiredLen : Op → BitVec 5
  | .enc => 12#5
  | .dec => 24#5

/-- The check of R49 as a Bool. -/
def wellFormed : Instr → Bool
  | .enc len _ => len == requiredLen .enc
  | .dec len _ => len == requiredLen .dec

/-- A well-formed command (R57). -/
abbrev WellFormed (i : Instr) : Prop := wellFormed i = true

end Sys2Proof
end

