-- ==== Sys2Proof/Machine/Decoder.lean ====
section
/-! DEFINITION. The syndrome decoder: the command `DEC` (43_decode.md). First what each step computes, as functions
of `B` and the syndrome; then the steps as actions on the working values, one per rule; then the command (R121). -/

namespace Sys2Proof.Machine

/-- `s = received · Ht` (R102). -/
def syndrome (b : Mat 12 12) (received : Vec 24) : Vec 12 := vecMul received (parityCheckT b)

/-- `s XOR column_j(B)`: `s_j` of R104, and `t_j` of R110 when applied to `s2`. -/
def candidate (b : Mat 12 12) (s : Vec 12) (j : Index) : Vec 12 := vecXor s (column j b)

/-- `M` of R104, in increasing order: all twelve candidates are evaluated. -/
def matchSet (sj : Vector (Vec 12) 12) : List Index :=
  (List.finRange 12).filter fun j => decide (weight sj[j] ≤ thresholdRight)

/-- The pair `(weight, index)` of k is lexicographically less than that of j (R106). -/
def lighter (sj : Vector (Vec 12) 12) (k j : Index) : Bool :=
  decide (weight sj[k] < weight sj[j]) || (decide (weight sj[k] = weight sj[j]) && decide (k < j))

/-- The element of `best :: rest` whose pair `(weight(sj[j]), j)` is lexicographically least (R106). -/
def lightest (sj : Vector (Vec 12) 12) (best : Index) : List Index → Index
  | [] => best
  | k :: rest => lightest sj (if lighter sj k best then k else best) rest

/-- The first j, in increasing order, with `weight(t_j) ≤ 2` (R110). -/
def firstLeft (b : Mat 12 12) (s2 : Vec 12) : Option Index :=
  (List.finRange 12).find? fun j => decide (weight (candidate b s2 j) ≤ thresholdLeft)

/-- `received <- vec_24(payload)` (R51, R117). -/
def assembleReceived (s : State) : State :=
  { s with work := { s.work with received := receivedOperand s.work.payload } }

/-- Step 1, `ComputeSyndrome` (R102). -/
def computeSyndrome (s : State) : State :=
  { s with work := { s.work with s := syndrome s.config.b s.work.received } }

/-- Step 2, `Direct` (R103): `error = [0^12 | s]`. -/
def direct (s : State) : State :=
  { s with work := { s.work with error := concat (zeroVec 12) s.work.s } }

/-- Step 3, `SearchRight` (R104): `sj[0..11]` and `M`. -/
def searchRight (s : State) : State :=
  let sj := Vector.ofFn fun j => candidate s.config.b s.work.s j
  { s with work := { s.work with sj := sj, M := matchSet sj } }

/-- `ExactlyOneMatch` with `M` = {j} (R105): `error = [unit_vector(j) | s_j]`. -/
def exactlyOneMatch (j : Index) (s : State) : State :=
  { s with work := { s.work with j := j, error := concat (unitVector j) s.work.sj[j] } }

/-- `MultipleMatches` with `M` = `first :: rest` (R106): the j of least weight, ties to the smallest j. -/
def multipleMatches (first : Index) (rest : List Index) (s : State) : State :=
  let j := lightest s.work.sj first rest
  { s with work := { s.work with j := j, error := concat (unitVector j) s.work.sj[j] } }

/-- Step 4, `ComputeSyndrome2` (R108): `s2 = s · B`, with `B` and not its transpose. -/
def computeSyndrome2 (s : State) : State :=
  let s2 := vecMul s.work.s s.config.b
  { s with work := { s.work with s2 := s2, weight2 := weight s2 } }

/-- Step 5, `DirectLeft` (R109): `error = [s2 | 0^12]`. -/
def directLeft (s : State) : State :=
  { s with work := { s.work with error := concat s.work.s2 (zeroVec 12) } }

/-- Step 6, `SearchLeft`, stopped at the column j (R110): `error = [t_j | unit_vector(j)]`. -/
def searchLeftMatch (j : Index) (s : State) : State :=
  let t := candidate s.config.b s.work.s2 j
  { s with work := { s.work with j := j, t := t, error := concat t (unitVector j) } }

/-- Step 6, `SearchLeft`, no j qualifies (R110): `t` is left holding the last candidate tested. DEDUCED, log entry 9. -/
def searchLeftNone (s : State) : State :=
  { s with work := { s.work with t := candidate s.config.b s.work.s2 11 } }

/-- The compatibility fallback (R113): `error <- 0^24`. -/
def compatFallback (s : State) : State :=
  { s with work := { s.work with error := zeroVec 24 } }

/-- Step 7, `Correction` (R114). -/
def correction (s : State) : State :=
  let c := vecXor s.work.received s.work.error
  respondWith .ok (decPayload c) { s with work := { s.work with corrected := c } }

/-- The terminal state `Uncorrectable` (R112): no correction, no data. -/
def uncorrectable (s : State) : State := respondWith .uncorrectable 0 s

/-- `DEC` (R100), step by step as R121 has it. The length is tested first (R101). -/
def execDec (len : BitVec 5) (payload : Payload) (s : State) : Host.Outcome State Fault Refusal :=
  let s := accept .dec len payload s
  if len ≠ requiredLen .dec then .next (raiseKind .invalidLength s) else
  let s := computeSyndrome (assembleReceived s)
  if weight s.work.s ≤ thresholdDirect then .next (correction (direct s)) else
  let s := searchRight s
  match s.work.M with
  | [j] => .next (correction (exactlyOneMatch j s))
  | j :: k :: rest => .next (correction (multipleMatches j (k :: rest) s))
  | [] =>
    let s := computeSyndrome2 s
    if s.work.weight2 ≤ thresholdDirectLeft then .next (correction (directLeft s)) else
    match firstLeft s.config.b s.work.s2 with
    | some j => .next (correction (searchLeftMatch j s))
    | none =>
      let s := searchLeftNone s
      if s.config.compatFallback then .next (correction (compatFallback s))
      else .next (uncorrectable s)

end Sys2Proof.Machine
end

