-- ==== Sys2Proof/Machine/Encoder.lean ====
section
/-! DEFINITION. The encoder: the command `ENC` (42_encode.md). -/

namespace Sys2Proof.Machine

/-- The codeword of a data word, `d · G` (R95). -/
def encodeData (b : Mat 12 12) (d : Vec 12) : Vec 24 := vecMul d (generator b)

/-- The encoder's one computing step (R95, phase `Encode`): `data`, `codeword`, `status`, `out`. -/
def encodeStep (s : State) : State :=
  let d := dataOperand s.work.payload
  let c := encodeData s.config.b d
  respondWith .ok (encPayload c) { s with work := { s.work with data := d, codeword := c } }

/-- `ENC` (R95). The length is tested first (R161, R168). -/
def execEnc (len : BitVec 5) (payload : Payload) (s : State) : Host.Outcome State Fault Refusal :=
  let s := accept .enc len payload s
  if len ≠ requiredLen .enc then .next (raiseKind .invalidLength s) else .next (encodeStep s)

end Sys2Proof.Machine
end

