-- ==== Sys2Proof/Machine/Dispatch.lean ====
section
/-! DEFINITION. One arm per command (00_scope.md R2). -/

namespace Sys2Proof.Machine

def exec (i : Instr) (s : State) : Host.Outcome State Fault Refusal :=
  match i with
  | .enc len payload => Sys2Proof.Machine.execEnc len payload s
  | .dec len payload => Sys2Proof.Machine.execDec len payload s

end Sys2Proof.Machine
end

