-- ==== Sys2Proof/Decode.lean ====
section
/-! DEFINITION. Reading and writing command words (30_encoding.md R47 to R49, R57, R60). -/

namespace Sys2Proof

/-- `cmd[29]`, `cmd[28:24]` and `cmd[23:0]` of R47. -/
def fieldOp (w : CmdWord) : BitVec 1 := w.extractLsb' 29 1

def fieldLen (w : CmdWord) : BitVec 5 := w.extractLsb' 24 5

def fieldPayload (w : CmdWord) : Payload := w.extractLsb' 0 24

/-- R57: every one of the 2^30 command words is a command. `OP` = 0 is `ENC`, `OP` = 1 is `DEC` (R48). -/
def decode (w : CmdWord) : Instr :=
  if fieldOp w = 0#1 then .enc (fieldLen w) (fieldPayload w) else .dec (fieldLen w) (fieldPayload w)

/-- A number read as a command word; a number with a bit above bit 29 is none (R47, R59). -/
def decodeNumber (w : Nat) : Except DecodeReject Instr :=
  if w < 2 ^ 30 then .ok (decode (BitVec.ofNat 30 w)) else .error .widerThanCommandWord

/-- The command read from the low `nbits` bits of `w`, numbered as the command table numbers them: bit 0 is
`cmd[0]`. The command word is carried whole on `cmd[29:0]` (R45), so there is no byte order to undo (R32); the two
bits a table row has above bit 29 when it is counted in whole bytes must be 0 (log entry 12). -/
def decodeTableWord (nbits w : Nat) : Option Instr :=
  match decodeNumber (w % 2 ^ nbits) with
  | .ok i => some i
  | .error _ => none

/-- The `OP` bit of R48. -/
def opBit : Op → BitVec 1
  | .enc => 0#1
  | .dec => 1#1

/-- The command word with these fields: `OP`, then `LEN`, then `PAYLOAD`, most significant first (R47). -/
def packCommand (op : Op) (len : BitVec 5) (payload : Payload) : CmdWord :=
  opBit op ++ (len ++ payload)

/-- The command word of a command. -/
def encode : Instr → CmdWord
  | .enc len payload => packCommand .enc len payload
  | .dec len payload => packCommand .dec len payload

/-- `ENC <12 digits>` of R60: `LEN` = 12, the data in `PAYLOAD[11:0]`, `PAYLOAD[23:12]` = 0. -/
def encOf (d : Vec 12) : Instr := .enc 12#5 (0#12 ++ d)

/-- `DEC <24 digits>` of R60: `LEN` = 24, the word in `PAYLOAD`. -/
def decOf (r : Vec 24) : Instr := .dec 24#5 r

end Sys2Proof
end

