-- ==== Sys2Proof/Machine/Sequencer.lean ====
section
/-! DEFINITION. The state machine of `phase`, one row of 43_decode.md R117's transition table at a time, with the
path of `ENC` that stands under the table. -/

namespace Sys2Proof.Machine

/-- Where `SearchRight` goes, by the number of elements of `M` (R117). -/
def afterSearchRight : List Index → Phase
  | [] => .noMatch
  | [_] => .exactlyOneMatch
  | _ :: _ :: _ => .multipleMatches

/-- One transition of R117 from the present value of `phase`. `Idle` has no transition but the accept of a command,
so a busy core that is `Idle` has none (log entry 8).
DESIGN CHOICE, log entry 15: a row makes its action on whatever the working values and `rsp_valid` are, also where
only power-on before the first reset could leave them so; outside `Respond` it neither offers nor clears `rsp_valid`
but for the rows that end in `Respond`. -/
def advance (s : State) : Host.Outcome State Fault Refusal :=
  match s.phase with
  | .idle => .fault .phaseUndefined
  | .checkLength =>
    if s.work.len ≠ requiredLen s.work.op then .next (raiseKind .invalidLength s) else
    match s.work.op with
    | .enc => .next (goto .encode s)
    | .dec => .next (goto .computeSyndrome (assembleReceived s))
  | .encode => .next (encodeStep s)
  | .computeSyndrome =>
    let s := computeSyndrome s
    .next (goto (if weight s.work.s ≤ thresholdDirect then .direct else .searchRight) s)
  | .direct => .next (goto .correction (direct s))
  | .searchRight =>
    let s := searchRight s
    .next (goto (afterSearchRight s.work.M) s)
  | .exactlyOneMatch =>
    match s.work.M with
    | [j] => .next (goto .correction (exactlyOneMatch j s))
    | _ => .fault .matchSetUndefined
  | .multipleMatches =>
    match s.work.M with
    | j :: k :: rest => .next (goto .correction (multipleMatches j (k :: rest) s))
    | _ => .fault .matchSetUndefined
  | .noMatch => .next (goto .computeSyndrome2 s)
  | .computeSyndrome2 =>
    let s := computeSyndrome2 s
    .next (goto (if s.work.weight2 ≤ thresholdDirectLeft then .directLeft else .searchLeft) s)
  | .directLeft => .next (goto .correction (directLeft s))
  | .searchLeft =>
    match firstLeft s.config.b s.work.s2 with
    | some j => .next (goto .correction (searchLeftMatch j s))
    | none => .next (goto .exhausted (searchLeftNone s))
  | .exhausted =>
    if s.config.compatFallback then .next (goto .correction (compatFallback s))
    else .next (goto .uncorrectable s)
  | .uncorrectable => .next (uncorrectable s)
  | .correction => .next (correction s)
  | .respond =>
    if !s.rspValid then .next (offerResponse s)
    else if s.pins.rspReady then .next (giveResponse s)
    else .next s

/-- `n` transitions, stopping at the first fault. -/
def advanceTimes : Nat → State → Host.Outcome State Fault Refusal
  | 0, s => .next s
  | n + 1, s =>
    match advance s with
    | .next s' => advanceTimes n s'
    | .fault f => .fault f
    | .refused r => .refused r

/-- The accept of a command alone (R46, first row of R117). -/
def latch : Instr → State → State
  | .enc len payload, s => accept .enc len payload s
  | .dec len payload, s => accept .dec len payload s

/-- One clock edge of the core when each transition of R117 takes an edge of its own (how many a transition takes is
not specified, R117, R198): the finest account of the ports, to which `step` is the coarse one. What it does with a
core that power-on left with `busy` = 0 and `phase` not `Idle` or `rsp_valid` = 1 is a DESIGN CHOICE, log entry 15. -/
def cycle (s : State) : Host.Outcome State Fault Refusal :=
  if s.pins.rst then .next (resetEvent s)
  else if s.busy then advance s
  else if s.pins.cmdValid then .next (latch (decode s.pins.cmd) s)
  else .next s

end Sys2Proof.Machine
end

