-- ==== Sys2Proof/Machine/Step.lean ====
section
/-! DEFINITION. One step of the core: one rising edge of `clk` (30_encoding.md R45, R46, 70_reset_and_hazards.md
R190), in which an accepted command is carried through to its response (R46: a command is one atomic step; log
entry 6). -/

namespace Sys2Proof.Machine

/-- One step. `rst` comes first (R190). A busy core makes a transition of R117 (and, at `Respond`, holds the response
until `rsp_ready`). A core that is not busy performs the command offered (R46), or waits (60_exceptions.md R177).

DESIGN CHOICE, log entry 15: with `busy` = 0 this holds also where `phase` is not `Idle` or `rsp_valid` = 1, which only
power-on before the first reset could leave (70_reset_and_hazards.md R193); `rsp_valid` then stays 1, `rsp_ready` is
not looked at, and accepting a command does not clear it. -/
def step (s : State) : Host.Outcome State Fault Refusal :=
  if s.pins.rst then .next (resetEvent s)
  else if s.busy then advance s
  else if s.pins.cmdValid then exec (decode s.pins.cmd) s
  else .next s

/-- `s` with the command word offered to an idle core that is out of reset (R46): there is no fetch (R40), so a
command comes to run by standing on `cmd` with `cmd_valid` = 1 while `cmd_ready` = 1 (log entry 10). -/
def State.withFetchWord (s : State) (nbits w : Nat) : State :=
  { s with pins := { s.pins with rst := false, cmdValid := true, cmd := BitVec.ofNat 30 (w % 2 ^ nbits) },
           busy := false, phase := .idle, rspValid := false }

end Sys2Proof.Machine
end

