-- ==== Sys2Proof/Machine/Checked.lean ====
section
/-! DEFINITION. The primitives of 40_gf2_algebra.md with the errors they raise on operands that do not fit:
`DimensionMismatch` (R71, R162), `RowCountMismatch` (R73, R163), `LengthMismatch` (R75, R164). The core applies them
at fitting sizes only (R78), which the fixed-size forms of Machine/Algebra.lean carry in their types (D18). -/

namespace Sys2Proof.Machine

/-- `A · C` for a Matrix(n,m) and a Matrix(p,q): fails when m is not p (R71). -/
def matMulChecked {n m p q : Nat} (A : Mat n m) (C : Mat p q) : Except ErrorKind (Mat n q) :=
  if h : p = m then .ok (matMul A (C.cast h)) else .error .dimensionMismatch

/-- `v · C` for a Vector(m) and a Matrix(p,q): fails when m is not p (R71). -/
def vecMulChecked {m p q : Nat} (v : Vec m) (C : Mat p q) : Except ErrorKind (Vec q) :=
  if h : p = m then .ok (vecMul v (C.cast h)) else .error .dimensionMismatch

/-- `[A | C]` for a Matrix(n,m) and a Matrix(p,q): fails when n is not p (R73). -/
def hconcatChecked {n m p q : Nat} (A : Mat n m) (C : Mat p q) : Except ErrorKind (Mat n (m + q)) :=
  if h : p = n then .ok (hconcat A (C.cast h)) else .error .rowCountMismatch

/-- `a XOR b` for a Vector(n) and a Vector(p): fails when n is not p (R75). -/
def vecXorChecked {n p : Nat} (a : Vec n) (b : Vec p) : Except ErrorKind (Vec n) :=
  if h : p = n then .ok (vecXor a (b.cast h)) else .error .lengthMismatch

end Sys2Proof.Machine
end

