-- ==== Sys2Proof/Machine/System.lean ====
section
/-! DEFINITION. What stands around the core, as far as the spec gives it: the channel (44_host_adapter.md R134), the
host driving the pins (R136), and a run of the ports with its result (70_reset_and_hazards.md R200). -/

namespace Sys2Proof.Machine

/-- The channel's whole effect (R134): `r = c XOR e`. -/
def channel (e : Vec 24) (c : Vec 24) : Vec 24 := vecXor c e

/-- The host puts new values on the input pins (R45, R136). -/
def drive (p : Pins) (s : State) : State := { s with pins := p }

/-- The command word accepted at this edge, if one is (R46). -/
def acceptedAt (s : State) : List CmdWord :=
  if s.pins.cmdValid && s.cmdReady then [s.pins.cmd] else []

/-- The response word given at this edge, if one is (R46); a reset at the same edge withdraws it (R190; log
entry 7). DESIGN CHOICE, log entry 15, for states that only power-on could leave: `rsp_valid` = 1 counts as a response
offered when `busy` = 1, in whatever phase, and not when `busy` = 0. -/
def givenAt (s : State) : List RspWord :=
  if s.busy && s.rspValid && s.pins.rspReady && !s.pins.rst then [s.rsp] else []

/-- What a run of the ports shows: the command words accepted and the response words given, each in order, and how
the last step ended. -/
structure PortTrace where
  accepted : List CmdWord
  given : List RspWord
  final : Host.Outcome State Fault Refusal

/-- The run of the ports under a schedule of pin values, one per edge, each edge making the step `edge`: `step`, or
`cycle` for the fine account (R200: the run's result is `given`). -/
def portRun (edge : State → Host.Outcome State Fault Refusal) : List Pins → State → PortTrace
  | [], s => { accepted := [], given := [], final := .next s }
  | p :: ps, s =>
    let s := drive p s
    match edge s with
    | .next s' =>
      let r := portRun edge ps s'
      { accepted := acceptedAt s ++ r.accepted, given := givenAt s ++ r.given, final := r.final }
    | .fault f => { accepted := acceptedAt s, given := givenAt s, final := .fault f }
    | .refused r => { accepted := acceptedAt s, given := givenAt s, final := .refused r }

end Sys2Proof.Machine
end

