-- ==== Sys2Proof/Safety.lean ====
section
/-! DEFINITION. The terms the claims use: the two commands as functions (30_encoding.md, preamble; 43_decode.md
R118), the conditions on `B` (45_properties.md R150) and the machine's invariant. -/

namespace Sys2Proof.Machine

/-- The error vector as a function of the syndrome alone (R118), read off R103 to R113. -/
def errpat (c : Config) (s : Vec 12) : Option (Vec 24) :=
  if weight s ≤ 3 then some (concat (zeroVec 12) s) else
  match (List.finRange 12).filter fun j => decide (weight (candidate c.b s j) ≤ 2) with
  | first :: rest =>
    let j := lightest (Vector.ofFn fun j => candidate c.b s j) first rest
    some (concat (unitVector j) (candidate c.b s j))
  | [] =>
    let s2 := vecMul s c.b
    if weight s2 ≤ 3 then some (concat s2 (zeroVec 12)) else
    match (List.finRange 12).find? fun j => decide (weight (candidate c.b s2 j) ≤ 2) with
    | some j => some (concat (candidate c.b s2 j) (unitVector j))
    | none => if c.compatFallback then some (zeroVec 24) else none

/-- `decode` of the source: the first 12 bits of `received XOR error`, or none for `Uncorrectable` (R100, R114). -/
def decodeData (c : Config) (received : Vec 24) : Option (Vec 12) :=
  (errpat c (syndrome c.b received)).map fun e => firstHalf (vecXor received e)

/-- The status and the payload with which a command is answered (R54 to R56, R58, R95, R100). -/
def answer (c : Config) : Instr → Status × Payload
  | .enc len payload =>
    if len = 12#5 then (.ok, encPayload (encodeData c.b (dataOperand payload))) else (.invalidLength, 0)
  | .dec len payload =>
    if len = 24#5 then
      match decodeData c (receivedOperand payload) with
      | some d => (.ok, (busOf d).setWidth 24)
      | none => (.uncorrectable, 0)
    else (.invalidLength, 0)

/-- The response word to a command word (R37: a function of that word and of the constants alone). -/
def response (c : Config) (w : CmdWord) : RspWord :=
  packResponse (answer c (decode w)).1 (answer c (decode w)).2

/-- The command in flight, from the latched fields. -/
def inFlight (w : Work) : Instr :=
  match w.op with
  | .enc => .enc w.len w.payload
  | .dec => .dec w.len w.payload

/-- The response to the command in flight, if one is: what the core still owes (R46, R190). -/
def owed (s : State) : List RspWord :=
  if s.busy then [packResponse (answer s.config (inFlight s.work)).1 (answer s.config (inFlight s.work)).2] else []

/-- The response is being offered (R46, R17 `Respond`). -/
def Offering (s : State) : Prop := s.busy = true ∧ s.phase = .respond ∧ s.rspValid = true

/-- `Correction` with the error vector `e` has been made and its result offered (R114, R55). -/
def CorrectedBy (e : Vec 24) (t : State) : Prop :=
  t.work.error = e ∧ t.work.corrected = vecXor t.work.received e ∧ t.work.status = .ok ∧
    t.work.out = (busOf (firstHalf t.work.corrected)).setWidth 24 ∧ Offering t

/-- (P1) of R150: `B` is symmetric (R87). -/
abbrev P1 (b : Mat 12 12) : Prop := IsSymmetric b

/-- (P2) of R150: `B · B = I`. -/
abbrev P2 (b : Mat 12 12) : Prop := matMul b b = identity

/-- (P3) of R150: every non-zero `d` has `weight(d) + weight(d · B) ≥ 8`. -/
abbrev P3 (b : Mat 12 12) : Prop := ∀ d : Vec 12, d ≠ zeroVec 12 → 8 ≤ weight d + weight (vecMul d b)

/-- A well-formed `DEC` is in flight past the length test (R101, R51). -/
def Decoding (s : State) : Prop :=
  s.busy = true ∧ s.rspValid = false ∧ s.work.op = .dec ∧ s.work.len = 24#5 ∧
    s.work.received = receivedOperand s.work.payload

/-- ... and its syndrome has been computed (R102). -/
def HasSyndrome (s : State) : Prop :=
  Decoding s ∧ s.work.s = syndrome s.config.b s.work.received

/-- ... and `SearchRight` has run (R104). -/
def SearchedRight (s : State) : Prop :=
  HasSyndrome s ∧ 3 < weight s.work.s ∧ s.work.sj = (Vector.ofFn fun j => candidate s.config.b s.work.s j) ∧
    s.work.M = matchSet s.work.sj

/-- ... and found nothing, and the second syndrome has been computed (R107, R108). -/
def HasSyndrome2 (s : State) : Prop :=
  SearchedRight s ∧ s.work.M = [] ∧ s.work.s2 = vecMul s.work.s s.config.b ∧ s.work.weight2 = weight s.work.s2

/-- The machine's invariant: in each phase, what the transitions that lead there have established (R117), up to
`Respond`, where the response offered is the one the command in flight must have. -/
def Coherent (s : State) : Prop :=
  match s.phase with
  | .idle => s.busy = false ∧ s.rspValid = false ∧ s.work = Work.initial
  | .checkLength => s.busy = true ∧ s.rspValid = false
  | .encode => s.busy = true ∧ s.rspValid = false ∧ s.work.op = .enc ∧ s.work.len = 12#5
  | .computeSyndrome => Decoding s
  | .direct => HasSyndrome s ∧ weight s.work.s ≤ 3
  | .searchRight => HasSyndrome s ∧ 3 < weight s.work.s
  | .exactlyOneMatch => SearchedRight s ∧ s.work.M.length = 1
  | .multipleMatches => SearchedRight s ∧ 2 ≤ s.work.M.length
  | .noMatch => SearchedRight s ∧ s.work.M = []
  | .computeSyndrome2 => SearchedRight s ∧ s.work.M = []
  | .directLeft => HasSyndrome2 s ∧ s.work.weight2 ≤ 3
  | .searchLeft => HasSyndrome2 s ∧ 3 < s.work.weight2
  | .exhausted =>
    HasSyndrome2 s ∧ 3 < s.work.weight2 ∧ ∀ j : Index, 2 < weight (candidate s.config.b s.work.s2 j)
  | .uncorrectable =>
    HasSyndrome s ∧ s.config.compatFallback = false ∧ errpat s.config s.work.s = none
  | .correction => HasSyndrome s ∧ errpat s.config s.work.s = some s.work.error
  | .respond =>
    s.busy = true ∧ s.rspValid = true ∧ (s.work.status, s.work.out) = answer s.config (inFlight s.work)

end Sys2Proof.Machine
end

