-- ==== Sys2Proof/Certificates/Slice0/Obligations.lean ====
section
/-! DEFINITION. The statements for the provers. Every statement over a state is over every configuration, so over
every `B` and both settings of `COMPAT_FALLBACK`. -/

open Sys2Proof Sys2Proof.Machine

/-! ### Command and response words -/

/-- Words written out from R47 and R60 decode to the commands they stand for. -/
def Obligations.SpecCommandWordsDecode : Prop :=
  decode 0b001100000000000000101010111100#30 = .enc 12#5 0x000ABC#24 ∧
  decode 0b111000101010111100101111110011#30 = .dec 24#5 0xABCBF3#24 ∧
  decode 0b011000101010111100101111110011#30 = .enc 24#5 0xABCBF3#24 ∧
  decode 0b101100000000000000101010111100#30 = .dec 12#5 0x000ABC#24 ∧
  encode (encOf 0x001#12) = 0x0C000001#30 ∧ encode (decOf 0x001FFE#24) = 0x38001FFE#30

/-- Encoding a command and decoding a command word are inverse to each other: no bit of either is dropped. -/
def Obligations.EncodeAndDecodeAreInverse : Prop :=
  (∀ i : Instr, decode (encode i) = i) ∧ (∀ w : CmdWord, encode (decode w) = w)

/-- The values of the words: `OP * 2^29 + LEN * 2^24 + PAYLOAD` and `STATUS * 2^24 + PAYLOAD` (R60). -/
def Obligations.WordValuesAreTheirFields : Prop :=
  (∀ (op : Op) (len : BitVec 5) (payload : Payload),
    (packCommand op len payload).toNat = (opBit op).toNat * 2 ^ 29 + len.toNat * 2 ^ 24 + payload.toNat) ∧
  (∀ (st : Status) (out : Payload), (packResponse st out).toNat = (statusCode st).toNat * 2 ^ 24 + out.toNat)

/-- R57: decoding is total and looks at `cmd[29]` and `cmd[28:24]` only; a word is performed when it matches one of
the two patterns and is refused with `InvalidLength` otherwise. -/
def Obligations.EveryCommandWordIsPerformedOrRefused : Prop :=
  ∀ (w : CmdWord) (s : State),
    (w &&& 0x3F000000#30 = 0x0C000000#30 → ∃ t, exec (decode w) s = .next t ∧ t.work.status = .ok ∧
      t.work.data = vecOf (w.extractLsb' 0 12) ∧ t.work.codeword = vecMul t.work.data (generator s.config.b) ∧
      t.work.out = busOf t.work.codeword) ∧
    (w &&& 0x3F000000#30 = 0x38000000#30 → ∃ t, exec (decode w) s = .next t ∧
      t.work.received = vecOf (w.extractLsb' 0 24) ∧
      (t.work.status, t.work.out) = match decodeData s.config t.work.received with
        | some d => (.ok, (busOf d).setWidth 24)
        | none => (.uncorrectable, 0)) ∧
    (w &&& 0x3F000000#30 ≠ 0x0C000000#30 → w &&& 0x3F000000#30 ≠ 0x38000000#30 →
      ∃ t, exec (decode w) s = .next t ∧ t.work.status = .invalidLength ∧ t.work.out = 0)

/-! ### The primitives and the constants -/

/-- R70, R71: the two operations on bits, the XOR-reduction, and the matrix product with its error. -/
def Obligations.MatrixProduct : Prop :=
  (∀ a b : Bool, xor a b = decide (a ≠ b) ∧ (a && b) = decide (a = true ∧ b = true)) ∧
  (∀ l : List Bool, xorReduce l = decide (l.count true % 2 = 1)) ∧
  ∀ (n m p q : Nat),
    (∀ (A : Mat n m) (C : Mat m q), matMulChecked A C = .ok (matMul A C) ∧
      (∀ i k, entry (matMul A C) i k = xorReduce ((List.finRange m).map fun t => entry A i t && entry C t k)) ∧
      (∀ i, row i (matMul A C) = vecMul (row i A) C)) ∧
    (∀ (A : Mat n m) (C : Mat p q), m ≠ p → matMulChecked A C = .error .dimensionMismatch) ∧
    (∀ (v : Vec m) (C : Mat m q), vecMulChecked v C = .ok (vecMul v C) ∧
      (∀ k, elem (vecMul v C) k = xorReduce ((List.finRange m).map fun t => elem v t && entry C t k))) ∧
    (∀ (v : Vec m) (C : Mat p q), m ≠ p → vecMulChecked v C = .error .dimensionMismatch)

/-- R72, R74: transpose and column extraction. -/
def Obligations.TransposeAndColumn : Prop :=
  ∀ (n m : Nat) (A : Mat n m),
    (∀ i k, entry (transpose A) k i = entry A i k) ∧ (∀ k i, elem (column k A) i = entry A i k)

/-- R73, R75: horizontal concatenation, which is not commutative, and vector XOR, with their errors. -/
def Obligations.ConcatenationAndXor : Prop :=
  (∃ b : Mat 12 12, hconcat identity b ≠ hconcat b identity) ∧
  ∀ (n m p q : Nat),
    (∀ (A : Mat n m) (C : Mat n q), hconcatChecked A C = .ok (hconcat A C) ∧
      (∀ i k, entry (hconcat A C) i (Fin.castAdd q k) = entry A i k) ∧
      (∀ i k, entry (hconcat A C) i (Fin.natAdd m k) = entry C i k)) ∧
    (∀ (A : Mat n m) (C : Mat p q), n ≠ p → hconcatChecked A C = .error .rowCountMismatch) ∧
    (∀ a b : Vec n, vecXorChecked a b = .ok (vecXor a b) ∧ ∀ i, elem (vecXor a b) i = xor (elem a i) (elem b i)) ∧
    (∀ (a : Vec n) (b : Vec p), n ≠ p → vecXorChecked a b = .error .lengthMismatch)

/-- R76: the Hamming weight counts the 1-bits. -/
def Obligations.HammingWeight : Prop :=
  ∀ (n : Nat) (a : Vec n), weight a = (Finset.univ.filter fun i => elem a i = true).card ∧ weight a ≤ n

/-- R80: concatenation of vectors, unit vectors, the zero vector and the first 12 bits. -/
def Obligations.VectorFormsOfTheDecoder : Prop :=
  (∀ (n m : Nat) (a : Vec n) (b : Vec m), (∀ i, elem (concat a b) (Fin.castAdd m i) = elem a i) ∧
    (∀ i, elem (concat a b) (Fin.natAdd n i) = elem b i)) ∧
  (∀ j : Index, (∀ i : Index, elem (unitVector j) i = decide (i = j)) ∧ weight (unitVector j) = 1) ∧
  (∀ i : Index, elem (zeroVec 12) i = false) ∧
  (∀ (c : Vec 24) (i : Index), elem (firstHalf c) i = elem c (Fin.castAdd 12 i))

/-- The corner cases that the spec draws from R71, R72 and R74 to R76 and R80 and marks as derived: what a product
does with zero rows, sums, identities and unit vectors, which rows it adds, symmetry, and how XOR and weight behave.
-/
def Obligations.AlgebraCornerCases : Prop :=
  ∀ (n m q : Nat) (A : Mat n m) (C : Mat m q) (E : Mat 12 q) (S : Mat n n) (v w : Vec m) (a b c : Vec n),
    (∀ i, row i A = zeroVec m → row i (matMul A C) = zeroVec q) ∧
    vecMul (vecXor v w) C = vecXor (vecMul v C) (vecMul w C) ∧
    vecMul v C = (List.finRange m).foldr (fun t acc => if elem v t then vecXor (row t C) acc else acc) (zeroVec q) ∧
    matMul identity E = E ∧ (∀ F : Mat q 12, matMul F identity = F) ∧
    (∀ j : Index, vecMul (unitVector j) E = row j E) ∧
    transpose (transpose A) = A ∧ (IsSymmetric S ↔ ∀ i k, entry S i k = entry S k i) ∧
    (∀ k, column k A = row k (transpose A)) ∧ (IsSymmetric S → ∀ k, column k S = row k S) ∧
    vecXor a a = zeroVec n ∧ vecXor a (zeroVec n) = a ∧ vecXor a b = vecXor b a ∧
    vecXor (vecXor a b) c = vecXor a (vecXor b c) ∧
    weight (zeroVec n) = 0 ∧ ((∀ i, elem a i = true) → weight a = n) ∧
    weight (concat a v) = weight a + weight v ∧
    weight (vecXor a b) = (Finset.univ.filter fun i => elem a i ≠ elem b i).card

/-- R8: element i of a Vector(n) is bus bit n-1-i, and a codeword's bus value is `data * 4096 + parity`. -/
def Obligations.ElementsLieOnTheBusFirstHighest : Prop :=
  (∀ (n : Nat) (v : Vec n) (i : Fin n), (busOf v).getLsbD (n - 1 - i) = elem v i) ∧
  (∀ (n : Nat) (w : BitVec n) (i : Fin n), elem (vecOf w) i = w.getLsbD (n - 1 - i)) ∧
  (∀ d p : Vec 12, (busOf (concat d p)).toNat = (busOf d).toNat * 4096 + (busOf p).toNat)

/-- R162 to R164: the three algebra errors are raised exactly when the operands do not fit, and no command reports
one. -/
def Obligations.MisfitOperandsRaiseTheirError : Prop :=
  (∀ (n m p q : Nat) (A : Mat n m) (C : Mat p q), matMulChecked A C = .error .dimensionMismatch ↔ m ≠ p) ∧
  (∀ (n m p q : Nat) (A : Mat n m) (C : Mat p q), hconcatChecked A C = .error .rowCountMismatch ↔ n ≠ p) ∧
  (∀ (n p : Nat) (a : Vec n) (b : Vec p), vecXorChecked a b = .error .lengthMismatch ↔ n ≠ p) ∧
  ∀ (i : Instr) (s : State), ∃ t, exec i s = .next t ∧ t.work.status ≠ .dimensionMismatch ∧
    t.work.status ≠ .rowCountMismatch ∧ t.work.status ≠ .lengthMismatch

/-- The table of uses under R78, which the spec marks as derived: at the sizes at which the constants, the encoder
and the decoder use them, the checked primitives raise nothing and give what the core computes. -/
def Obligations.CoreSizesRaiseNothing : Prop :=
  ∀ b : Mat 12 12,
    hconcatChecked identity b = .ok (generator b) ∧
    (∃ h, hconcatChecked b identity = .ok h ∧ transpose h = parityCheckT b) ∧
    (∀ d : Vec 12, vecMulChecked d (generator b) = .ok (encodeData b d)) ∧
    (∀ r : Vec 24, vecMulChecked r (parityCheckT b) = .ok (syndrome b r)) ∧
    (∀ s : Vec 12, vecMulChecked s b = .ok (vecMul s b)) ∧
    matMulChecked (generator b) (parityCheckT b) = .ok (invariantProduct b) ∧
    (∀ (s : Vec 12) (j : Index), vecXorChecked s (column j b) = .ok (candidate b s j)) ∧
    (∀ r e : Vec 24, vecXorChecked r e = .ok (vecXor r e))

/-- R85, R90, R91: the constant matrices, entry by entry. -/
def Obligations.ConstantMatricesEntryByEntry : Prop :=
  ∀ (b : Mat 12 12) (i k : Index),
    entry identity i k = decide (i = k) ∧
    row i identity = unitVector i ∧ column i identity = unitVector i ∧
    entry (generator b) i (Fin.castAdd 12 k) = entry identity i k ∧
    entry (generator b) i (Fin.natAdd 12 k) = entry b i k ∧
    row i (generator b) = concat (unitVector i) (row i b) ∧
    (∀ d : Vec 12, firstHalf (vecMul d (generator b)) = d) ∧
    entry (parityCheckT b) (Fin.castAdd 12 i) k = entry b k i ∧
    entry (parityCheckT b) (Fin.natAdd 12 i) k = entry identity k i ∧
    row (Fin.castAdd 12 i) (parityCheckT b) = row i (transpose b) ∧
    row (Fin.natAdd 12 i) (parityCheckT b) = row i identity ∧
    (IsSymmetric b → row (Fin.castAdd 12 i) (parityCheckT b) = row i b)

/-- R94, which the spec marks as derived: the two products, half by half. -/
def Obligations.ProductsHalfByHalf : Prop :=
  ∀ b : Mat 12 12,
    (∀ d : Vec 12, vecMul d (generator b) = concat d (vecMul d b)) ∧
    (∀ (d : Vec 12) (k : Index),
      elem (vecMul d b) k = xorReduce ((List.finRange 12).map fun i => elem d i && entry b i k)) ∧
    (∀ r1 r2 : Vec 12, vecMul (concat r1 r2) (parityCheckT b) = vecXor (vecMul r1 (transpose b)) r2) ∧
    (∀ (r : Vec 24) (k : Index),
      elem (vecMul r (parityCheckT b)) k
        = xor (xorReduce ((List.finRange 12).map fun t => elem r (Fin.castAdd 12 t) && entry b k t))
            (elem r (Fin.natAdd 12 k))) ∧
    (IsSymmetric b → ∀ r1 r2 : Vec 12, vecMul (concat r1 r2) (parityCheckT b) = vecXor (vecMul r1 b) r2)

/-- R92. The entry formula `(G · Ht)[i][k] = B[k][i] XOR B[i][k]`, and with it that `G · Ht = 0` holds if and only if
`B` is symmetric, the spec marks as derived; so the static check passes exactly for a symmetric `B`, and when it passes
every valid codeword c satisfies `c · Ht = 0`. -/
def Obligations.ProductOfTheConstantsIsZeroIffSymmetric : Prop :=
  ∀ b : Mat 12 12,
    (∀ i k, entry (matMul (generator b) (parityCheckT b)) i k = xor (entry b k i) (entry b i k)) ∧
    ((∀ i k, entry (matMul (generator b) (parityCheckT b)) i k = false) ↔ IsSymmetric b) ∧
    (staticCheck b = true ↔ IsSymmetric b) ∧
    (staticCheck b = true → ∀ d : Vec 12, vecMul (encodeData b d) (parityCheckT b) = zeroVec 12)

/-! ### ENC -/

/-- R54, R96 and the result of R95: a well-formed `ENC` completes in every state, with the systematic codeword of
its data word on the response. -/
def Obligations.EncAnswersTheSystematicCodeword : Prop :=
  ∀ (payload : Payload) (s : State), ∃ t, exec (.enc 12#5 payload) s = .next t ∧ Offering t ∧
    t.work.status = .ok ∧ t.work.data = dataOperand payload ∧
    t.work.codeword = vecMul t.work.data (generator s.config.b) ∧
    firstHalf t.work.codeword = t.work.data ∧
    (∀ k : Index, elem (secondHalf t.work.codeword) k
      = xorReduce ((List.finRange 12).map fun i => elem t.work.data i && entry s.config.b i k)) ∧
    (∀ i : Fin 24, t.rsp.getLsbD (23 - i) = elem t.work.codeword i) ∧
    t.rsp.extractLsb' 24 3 = 0#3 ∧ t.rsp.extractLsb' 12 12 = payload.extractLsb' 0 12 ∧
    t.rsp.extractLsb' 0 12 = busOf (vecMul t.work.data s.config.b)

/-- R50: `data[i] = payload[11-i]`, and `payload[23:12]` does not affect the response. -/
def Obligations.EncIgnoresTheUpperPayloadBits : Prop :=
  ∀ (payload payload' : Payload) (s : State), payload.extractLsb' 0 12 = payload'.extractLsb' 0 12 →
    ∃ t t', exec (.enc 12#5 payload) s = .next t ∧ exec (.enc 12#5 payload') s = .next t' ∧
      t.rsp = t'.rsp ∧ t.work.data = t'.work.data ∧
      ∀ i : Index, elem t.work.data i = payload.getLsbD (11 - i)

/-- The corner cases of R95, which the spec marks as derived: it is linear and injective, sends 0 to 0 and a unit
vector to a row of `G`. -/
def Obligations.EncodingIsLinearAndInjective : Prop :=
  ∀ b : Mat 12 12,
    (∀ d e : Vec 12, encodeData b (vecXor d e) = vecXor (encodeData b d) (encodeData b e)) ∧
    encodeData b (zeroVec 12) = zeroVec 24 ∧
    (∀ i : Index, encodeData b (unitVector i) = concat (unitVector i) (row i b)) ∧
    (∀ d e : Vec 12, encodeData b d = encodeData b e → d = e)

/-- R97, which the spec marks as derived: with `B` symmetric, the words of syndrome zero are exactly the codewords.
-/
def Obligations.CodewordsAreTheWordsOfSyndromeZero : Prop :=
  ∀ b : Mat 12 12, IsSymmetric b →
    (∀ d : Vec 12, vecMul (encodeData b d) (parityCheckT b) = zeroVec 12) ∧
    (∀ c : Vec 24, vecMul c (parityCheckT b) = zeroVec 12 → c = encodeData b (firstHalf c))

/-! ### Errors and frames of both commands -/

/-- R161, R101: a command whose `LEN` is not the required length is answered with `INVALID_LENGTH` and payload 0;
only the latched fields and the outcome are written, so no vector is assembled and no product computed. -/
def Obligations.WrongLengthIsAnsweredInvalidLength : Prop :=
  ∀ (len : BitVec 5) (payload : Payload) (s : State),
    (len ≠ 12#5 → ∃ t, exec (.enc len payload) s = .next t ∧ Offering t ∧ t.rsp = 0x2000000#27 ∧
      t.config = s.config ∧ t.pins = s.pins ∧
      t.work = { s.work with op := .enc, len := len, payload := payload, status := .invalidLength, out := 0 }) ∧
    (len ≠ 24#5 → ∃ t, exec (.dec len payload) s = .next t ∧ Offering t ∧ t.rsp = 0x2000000#27 ∧
      t.config = s.config ∧ t.pins = s.pins ∧
      t.work = { s.work with op := .dec, len := len, payload := payload, status := .invalidLength, out := 0 }) ∧
    (len = 12#5 → ∃ t, exec (.enc len payload) s = .next t ∧ t.work.status ≠ .invalidLength) ∧
    (len = 24#5 → ∃ t, exec (.dec len payload) s = .next t ∧ t.work.status ≠ .invalidLength)

/-- R15: what each command writes. `ENC` leaves every decoder value, `DEC` leaves `data` and `codeword`, and both
leave the constants and the input pins. -/
def Obligations.CommandsWriteOnlyTheirWorkingValues : Prop :=
  (∀ (len : BitVec 5) (payload : Payload) (s t : State), exec (.enc len payload) s = .next t →
    t.config = s.config ∧ t.pins = s.pins ∧
    t.work = { s.work with op := .enc, len := len, payload := payload, data := t.work.data,
                           codeword := t.work.codeword, status := t.work.status, out := t.work.out }) ∧
  (∀ (len : BitVec 5) (payload : Payload) (s t : State), exec (.dec len payload) s = .next t →
    t.config = s.config ∧ t.pins = s.pins ∧ t.work.op = .dec ∧ t.work.len = len ∧ t.work.payload = payload ∧
    t.work.data = s.work.data ∧ t.work.codeword = s.work.codeword)

/-- R52, R53, R78, R166: the response word's two fields, and the outcomes a command can report. `UNCORRECTABLE`
comes from a well-formed `DEC` with `COMPAT_FALLBACK` = 0 only, and codes 3 to 7 are never on the response. -/
def Obligations.OutcomesACommandCanReport : Prop :=
  ∀ (i : Instr) (s : State), ∃ t, exec i s = .next t ∧ Offering t ∧
    t.rsp.extractLsb' 24 3 = statusCode t.work.status ∧ t.rsp.extractLsb' 0 24 = t.work.out ∧
    (t.work.status = .ok ∨ t.work.status = .uncorrectable ∨ t.work.status = .invalidLength) ∧
    (t.work.status = .invalidLength ↔ ¬ WellFormed i) ∧
    (t.work.status = .uncorrectable → s.config.compatFallback = false ∧ ∃ payload, i = .dec 24#5 payload) ∧
    (t.rsp.extractLsb' 24 3).toNat ≤ 2

/-- R56: no data are delivered with an error. -/
def Obligations.NoDataWithAnError : Prop :=
  ∀ (i : Instr) (s : State), ∃ t, exec i s = .next t ∧ (t.work.status ≠ .ok → t.rsp.extractLsb' 0 24 = 0#24)

/-- R149, R37: two instances with the same parameters, each ready and offered the same command word, offer the same
response word, whatever else their states hold. -/
def Obligations.SameWordSameResponse : Prop :=
  ∀ s s' : State, s.config = s'.config → s.cmdReady = true → s'.cmdReady = true →
    s.pins.cmdValid = true → s'.pins.cmdValid = true → s.pins.cmd = s'.pins.cmd →
    ∃ t t', step s = .next t ∧ step s' = .next t' ∧ Offering t ∧ Offering t' ∧ t.rsp = t'.rsp

/-- The commands as straight-line programs on the machine (R95, R121) answer what the two functions of R118 give. -/
def Obligations.CommandsComputeTheirFunctions : Prop :=
  ∀ (i : Instr) (s : State), ∃ t, exec i s = .next t ∧ Offering t ∧
    (t.work.status, t.work.out) = answer s.config i ∧ t.rsp = response s.config (encode i)

/-! ### DEC, branch by branch -/

/-- R102, R103, R114: `Direct`. -/
def Obligations.DecDirect : Prop :=
  ∀ (payload : Payload) (s : State),
    let b := s.config.b
    let r := receivedOperand payload
    let syn := vecMul r (parityCheckT b)
    weight syn ≤ 3 → ∃ t, exec (.dec 24#5 payload) s = .next t ∧ t.work.received = r ∧ t.work.s = syn ∧
      (∀ k : Index, elem t.work.s k
        = xor (xorReduce ((List.finRange 12).map fun u => elem r (Fin.castAdd 12 u) && entry b k u))
            (elem r (Fin.natAdd 12 k))) ∧
      CorrectedBy (concat (zeroVec 12) syn) t ∧
      (∀ i : Index, elem t.work.error (Fin.castAdd 12 i) = false ∧ elem t.work.error (Fin.natAdd 12 i) = elem syn i) ∧
      firstHalf t.work.corrected = firstHalf r

/-- R104: `SearchRight` evaluates all twelve candidates and collects the matching columns. -/
def Obligations.DecSearchRight : Prop :=
  ∀ (payload : Payload) (s : State),
    let b := s.config.b
    let syn := vecMul (receivedOperand payload) (parityCheckT b)
    3 < weight syn → ∃ t, exec (.dec 24#5 payload) s = .next t ∧ t.work.s = syn ∧
      (∀ j : Index, t.work.sj[j] = vecXor syn (column j b)) ∧
      (∀ j : Index, j ∈ t.work.M ↔ weight t.work.sj[j] ≤ 2) ∧ t.work.M.Pairwise (· < ·)

/-- R105: `ExactlyOneMatch`. -/
def Obligations.DecExactlyOneMatch : Prop :=
  ∀ (payload : Payload) (s : State) (j : Index),
    let b := s.config.b
    let syn := vecMul (receivedOperand payload) (parityCheckT b)
    3 < weight syn → (∀ k : Index, weight (vecXor syn (column k b)) ≤ 2 ↔ k = j) →
    ∃ t, exec (.dec 24#5 payload) s = .next t ∧ t.work.received = receivedOperand payload ∧ t.work.M = [j] ∧
      t.work.j = j ∧ CorrectedBy (concat (unitVector j) (vecXor syn (column j b))) t ∧
      (∀ i : Index, elem t.work.error (Fin.castAdd 12 i) = decide (i = j) ∧
        elem t.work.error (Fin.natAdd 12 i) = elem t.work.sj[j] i)

/-- R106: `MultipleMatches` takes the match whose pair (weight, index) is lexicographically least. -/
def Obligations.DecMultipleMatches : Prop :=
  ∀ (payload : Payload) (s : State) (j k : Index),
    let b := s.config.b
    let syn := vecMul (receivedOperand payload) (parityCheckT b)
    let wt := fun l : Index => weight (vecXor syn (column l b))
    3 < weight syn → wt j ≤ 2 → wt k ≤ 2 → k ≠ j →
    (∀ l : Index, wt l ≤ 2 → wt j < wt l ∨ (wt j = wt l ∧ j ≤ l)) →
    ∃ t, exec (.dec 24#5 payload) s = .next t ∧ t.work.received = receivedOperand payload ∧
      2 ≤ t.work.M.length ∧ t.work.j = j ∧ CorrectedBy (concat (unitVector j) (vecXor syn (column j b))) t

/-- R107, R108, R109: no match on the right, the second syndrome, `DirectLeft`. -/
def Obligations.DecDirectLeft : Prop :=
  ∀ (payload : Payload) (s : State),
    let b := s.config.b
    let syn := vecMul (receivedOperand payload) (parityCheckT b)
    let syn2 := vecMul syn b
    3 < weight syn → (∀ k : Index, 2 < weight (vecXor syn (column k b))) → weight syn2 ≤ 3 →
    ∃ t, exec (.dec 24#5 payload) s = .next t ∧ t.work.received = receivedOperand payload ∧ t.work.M = [] ∧
      t.work.s2 = syn2 ∧ t.work.weight2 = weight syn2 ∧
      (∀ k : Index, elem t.work.s2 k = xorReduce ((List.finRange 12).map fun i => elem syn i && entry b i k)) ∧
      CorrectedBy (concat syn2 (zeroVec 12)) t ∧
      (∀ i : Index, elem t.work.error (Fin.castAdd 12 i) = elem syn2 i ∧
        elem t.work.error (Fin.natAdd 12 i) = false)

/-- R110: `SearchLeft` stops at the first column that qualifies, whatever the weights at larger indices. -/
def Obligations.DecSearchLeft : Prop :=
  ∀ (payload : Payload) (s : State) (j : Index),
    let b := s.config.b
    let syn := vecMul (receivedOperand payload) (parityCheckT b)
    let syn2 := vecMul syn b
    3 < weight syn → (∀ k : Index, 2 < weight (vecXor syn (column k b))) → 3 < weight syn2 →
    weight (vecXor syn2 (column j b)) ≤ 2 → (∀ k : Index, k < j → 2 < weight (vecXor syn2 (column k b))) →
    ∃ t, exec (.dec 24#5 payload) s = .next t ∧ t.work.received = receivedOperand payload ∧ t.work.s2 = syn2 ∧
      t.work.t = vecXor syn2 (column j b) ∧ t.work.j = j ∧
      CorrectedBy (concat (vecXor syn2 (column j b)) (unitVector j)) t

/-- R111, R112, R166: an exhausted search with `COMPAT_FALLBACK` = 0 is reported, and no correction is made. -/
def Obligations.DecUncorrectable : Prop :=
  ∀ (payload : Payload) (s : State),
    let b := s.config.b
    let syn := vecMul (receivedOperand payload) (parityCheckT b)
    let syn2 := vecMul syn b
    3 < weight syn → (∀ k : Index, 2 < weight (vecXor syn (column k b))) → 3 < weight syn2 →
    (∀ k : Index, 2 < weight (vecXor syn2 (column k b))) → s.config.compatFallback = false →
    ∃ t, exec (.dec 24#5 payload) s = .next t ∧ Offering t ∧ t.work.status = .uncorrectable ∧ t.work.out = 0 ∧
      t.rsp = 0x1000000#27 ∧ t.work.error = s.work.error ∧ t.work.corrected = s.work.corrected

/-- R113: with `COMPAT_FALLBACK` = 1 an exhausted search assumes the zero error vector, `UNCORRECTABLE` is never
produced, and the mode changes nothing else. -/
def Obligations.CompatibilityFallback : Prop :=
  ∀ (payload : Payload) (s : State),
    let b := s.config.b
    let syn := vecMul (receivedOperand payload) (parityCheckT b)
    let syn2 := vecMul syn b
    s.config.compatFallback = true →
    ∃ t, exec (.dec 24#5 payload) s = .next t ∧ t.work.status = .ok ∧
      (3 < weight syn → (∀ k : Index, 2 < weight (vecXor syn (column k b))) → 3 < weight syn2 →
        (∀ k : Index, 2 < weight (vecXor syn2 (column k b))) →
        CorrectedBy (zeroVec 24) t ∧ t.work.out = (busOf (firstHalf (receivedOperand payload))).setWidth 24) ∧
      (∀ t0, exec (.dec 24#5 payload) { s with config := { s.config with compatFallback := false } } = .next t0 →
        t0.work.status ≠ .uncorrectable → t0.work = t.work)

/-- R51, R55: the operand of `DEC`, and the payload of an `OK` response. -/
def Obligations.DecOperandAndOkPayload : Prop :=
  ∀ (payload : Payload) (s : State), ∃ t, exec (.dec 24#5 payload) s = .next t ∧
    (∀ i : Fin 24, elem t.work.received i = payload.getLsbD (23 - i)) ∧
    firstHalf t.work.received = payload.extractLsb' 12 12 ∧ secondHalf t.work.received = payload.extractLsb' 0 12 ∧
    (t.work.status = .ok → t.rsp.extractLsb' 12 12 = 0#12 ∧
      ∀ i : Index, t.rsp.getLsbD (11 - i) = elem t.work.corrected (Fin.castAdd 12 i))

/-- R119, which the spec marks as derived: an error vector that is formed has weight at most 3, so `DEC` never
changes more than three bits. -/
def Obligations.ErrorVectorsHaveWeightAtMostThree : Prop :=
  ∀ (payload : Payload) (s : State), ∃ t, exec (.dec 24#5 payload) s = .next t ∧
    (t.work.status = .ok → weight t.work.error ≤ 3 ∧ weight (vecXor t.work.received t.work.corrected) ≤ 3)

/-- R120, which the spec marks as derived: when the corrected word has syndrome zero, for every `B` after `Direct`
and the right search, and for symmetric `B` with `B · B = I` after every branch but the fallback; after the fallback
it has not. -/
def Obligations.CorrectedWordsHaveSyndromeZero : Prop :=
  ∀ (payload : Payload) (s : State),
    let b := s.config.b
    let syn := vecMul (receivedOperand payload) (parityCheckT b)
    ∃ t, exec (.dec 24#5 payload) s = .next t ∧
      (weight syn ≤ 3 ∨ (∃ k : Index, weight (vecXor syn (column k b)) ≤ 2) →
        t.work.status = .ok ∧ vecMul t.work.corrected (parityCheckT b) = zeroVec 12 ∧
        (P1 b → t.work.corrected = encodeData b (firstHalf t.work.corrected))) ∧
      (P1 b → P2 b → errpat { s.config with compatFallback := false } syn ≠ none →
        t.work.status = .ok ∧ vecMul t.work.corrected (parityCheckT b) = zeroVec 12 ∧
        t.work.corrected = encodeData b (firstHalf t.work.corrected)) ∧
      (errpat { s.config with compatFallback := false } syn = none → t.work.status = .ok →
        t.work.corrected = t.work.received ∧ vecMul t.work.corrected (parityCheckT b) ≠ zeroVec 12)

/-- R118, which the spec marks as derived: the error vector depends on the syndrome alone, and is `errpat` of it. -/
def Obligations.ErrorVectorIsAFunctionOfTheSyndrome : Prop :=
  ∀ (payload payload' : Payload) (s s' : State), s.config = s'.config →
    syndrome s.config.b (receivedOperand payload) = syndrome s.config.b (receivedOperand payload') →
    ∃ t t', exec (.dec 24#5 payload) s = .next t ∧ exec (.dec 24#5 payload') s' = .next t' ∧
      t.work.status = t'.work.status ∧
      (t.work.status = .ok → t.work.error = t'.work.error ∧
        errpat s.config (syndrome s.config.b (receivedOperand payload)) = some t.work.error)

/-! ### The code's properties -/

/-- R145: the round trip, for symmetric `B`, in both settings of `COMPAT_FALLBACK`. -/
def Obligations.RoundTrip : Prop :=
  ∀ (s s' : State) (d : Vec 12), P1 s.config.b → s'.config.b = s.config.b →
    ∃ t t', exec (encOf d) s = .next t ∧ t.work.status = .ok ∧
      exec (decOf t.work.out) s' = .next t' ∧ t'.work.status = .ok ∧ t'.work.out = (busOf d).setWidth 24

/-- R146 for the data, and R150 items 2 and 3, which the spec marks as derived, for the error vector: up to three
channel errors anywhere in the codeword are corrected, with just those errors as the error vector, in both settings of
`COMPAT_FALLBACK`. -/
def Obligations.UpToThreeErrorsAreCorrected : Prop :=
  ∀ (s s' : State) (d : Vec 12) (e : Vec 24), P1 s.config.b → P2 s.config.b → P3 s.config.b →
    s'.config.b = s.config.b → weight e ≤ 3 →
    ∃ t t', exec (encOf d) s = .next t ∧ t.work.status = .ok ∧
      exec (decOf (channel e t.work.out)) s' = .next t' ∧ t'.work.status = .ok ∧
      t'.work.error = e ∧ t'.work.out = (busOf d).setWidth 24

/-- R150 item 5, which the spec marks as derived: four channel errors are always detected when `COMPAT_FALLBACK` =
0. -/
def Obligations.FourErrorsAreDetected : Prop :=
  ∀ (s s' : State) (d : Vec 12) (e : Vec 24), P1 s.config.b → P2 s.config.b → P3 s.config.b →
    s'.config.b = s.config.b → s'.config.compatFallback = false → weight e = 4 →
    ∃ t t', exec (encOf d) s = .next t ∧ t.work.status = .ok ∧
      exec (decOf (channel e t.work.out)) s' = .next t' ∧ t'.work.status = .uncorrectable ∧ t'.work.out = 0

/-- R147's second form, which the spec marks as derived: the minimum distance property and (P3) are the same
condition on `B`. -/
def Obligations.MinimumDistanceIsAPropertyOfB : Prop :=
  ∀ b : Mat 12 12, P3 b ↔
    ∀ d1 d2 : Vec 12, d1 ≠ d2 → 8 ≤ weight (vecXor (encodeData b d1) (encodeData b d2))

/-- R150 item 1, which the spec marks as derived: a syndrome has at most one error vector of weight at most 3, even
against weight 4. -/
def Obligations.LowWeightVectorsAreToldApartBySyndrome : Prop :=
  ∀ (b : Mat 12 12) (x y : Vec 24), P1 b → P3 b → weight x ≤ 3 → weight y ≤ 4 →
    syndrome b x = syndrome b y → x = y

/-- R150 item 4, which the spec marks as derived: neither search ever has two columns to choose from. -/
def Obligations.SearchesHaveAtMostOneMatch : Prop :=
  ∀ (b : Mat 12 12) (s : Vec 12) (j k : Index), P1 b → P3 b →
    (weight (candidate b s j) ≤ 2 → weight (candidate b s k) ≤ 2 → j = k) ∧
    (P2 b → weight (candidate b (vecMul s b) j) ≤ 2 → weight (candidate b (vecMul s b) k) ≤ 2 → j = k)

/-! ### The machine -/

/-- R46: in a cycle in which a command is offered and the core is ready, the step is the command's meaning, nothing
before it and nothing after it. -/
def Obligations.StepRunsTheDecodedCommand : Prop :=
  ∀ s : State, s.cmdReady = true → s.pins.cmdValid = true →
    step s = exec (decode s.pins.cmd) s ∧ acceptedAt s = [s.pins.cmd] ∧
    ∀ (i : Instr), encode i = s.pins.cmd → step s = exec i s

/-- R47: the fields are latched on accept, from the bits of the command word, and the response is offered. -/
def Obligations.AcceptLatchesTheFields : Prop :=
  ∀ s : State, s.cmdReady = true → s.pins.cmdValid = true → ∃ t, step s = .next t ∧ Offering t ∧
    t.work.op = (if s.pins.cmd.getLsbD 29 = false then .enc else .dec) ∧
    t.work.len = s.pins.cmd.extractLsb' 24 5 ∧ t.work.payload = s.pins.cmd.extractLsb' 0 24

/-- R46: an offered response is held unchanged until `rsp_ready` = 1; in that cycle it is given and the core becomes
ready; meanwhile no command is accepted. -/
def Obligations.ResponseIsHeldUntilTaken : Prop :=
  ∀ s : State, Offering s → s.pins.rst = false →
    acceptedAt s = [] ∧
    (s.pins.rspReady = false → step s = .next s ∧ givenAt s = []) ∧
    (s.pins.rspReady = true → givenAt s = [s.rsp] ∧
      ∃ t, step s = .next t ∧ t.rspValid = false ∧ t.busy = false ∧ t.phase = .idle ∧ t.cmdReady = true ∧
        t.config = s.config)

/-- R177: a core with no command in flight waits for `cmd_valid`. -/
def Obligations.IdleCoreWaits : Prop :=
  ∀ s : State, s.cmdReady = true → s.pins.cmdValid = false → step s = .next s ∧ acceptedAt s = []

/-- R190: the reset event, from every state. That nothing is given at an edge at which `rst` meets a response being
taken (`rsp_ready` = 1) is the model's reading, DEDUCED (log entry 7). -/
def Obligations.ResetDropsTheCommandInFlight : Prop :=
  ∀ s : State, s.pins.rst = true →
    s.cmdReady = false ∧ acceptedAt s = [] ∧ givenAt s = [] ∧
    ∃ t, step s = .next t ∧ t.busy = false ∧ t.phase = .idle ∧ t.rspValid = false ∧ t.config = s.config ∧
      ∀ p : Pins, p.rst = false → (drive p t).cmdReady = true

/-- R23, R190: the state after reset. That `State.reset` is built with the default parameters is the model's choice
(log entries 1 and 2), and so are its pins (log entry 5). -/
def Obligations.StateAfterReset : Prop :=
  State.reset.busy = false ∧ State.reset.phase = .idle ∧ State.reset.rspValid = false ∧
    State.reset.cmdReady = true ∧ State.reset.config = defaultConfig

/-- The invariant holds right after reset, whatever the instance's parameters and the host's pins. -/
def Obligations.InvariantAtReset : Prop :=
  Coherent State.reset ∧ ∀ (c : Config) (p : Pins), Coherent (State.idleWith c p)

/-- Every step of the machine keeps the invariant. -/
def Obligations.StepKeepsTheInvariant : Prop :=
  ∀ s t : State, Coherent s → step s = .next t → Coherent t

/-- Every single transition of the fine account keeps the invariant. -/
def Obligations.CycleKeepsTheInvariant : Prop :=
  ∀ s t : State, Coherent s → cycle s = .next t → Coherent t

/-- R116: from a state that meets the invariant neither account of the machine ever stops, and reset brings every
state back to one that meets it. That the invariant asks the working values named for reset of an idle core, and that
reset leaves them, is the model's choice (log entries 3 and 4). -/
def Obligations.MachineNeverStops : Prop :=
  (∀ s : State, Coherent s → (∃ t, step s = .next t) ∧ ∃ t, cycle s = .next t) ∧
  (∀ s : State, s.pins.rst = true → ∃ t, step s = .next t ∧ Coherent t)

/-- R117: the transition table, row by row, for a core out of reset: the accept, then every row of a command in
flight. -/
def Obligations.TransitionTableRowByRow : Prop :=
  (∀ s : State, s.pins.rst = false → s.busy = false → s.pins.cmdValid = true → ∃ t, cycle s = .next t ∧
    t.busy = true ∧ t.phase = .checkLength ∧
    t.work = { s.work with op := if fieldOp s.pins.cmd = 0#1 then .enc else .dec, len := fieldLen s.pins.cmd,
                           payload := fieldPayload s.pins.cmd }) ∧
  ∀ s : State, s.pins.rst = false → s.busy = true →
    let b := s.config.b
    (s.phase = .checkLength → s.work.len ≠ requiredLen s.work.op → ∃ t, cycle s = .next t ∧
      t.work = { s.work with status := .invalidLength, out := 0 } ∧ Offering t) ∧
    (s.phase = .checkLength → s.work.op = .dec → s.work.len = 24#5 → ∃ t, cycle s = .next t ∧
      t.work = { s.work with received := vecOf s.work.payload } ∧ t.phase = .computeSyndrome) ∧
    (s.phase = .checkLength → s.work.op = .enc → s.work.len = 12#5 → ∃ t, cycle s = .next t ∧
      t.work = s.work ∧ t.phase = .encode) ∧
    (s.phase = .encode → ∃ t, cycle s = .next t ∧ Offering t ∧
      t.work = { s.work with data := dataOperand s.work.payload,
                             codeword := vecMul (dataOperand s.work.payload) (generator b), status := .ok,
                             out := busOf (vecMul (dataOperand s.work.payload) (generator b)) }) ∧
    (s.phase = .computeSyndrome → ∃ t, cycle s = .next t ∧
      t.work = { s.work with s := vecMul s.work.received (parityCheckT b) } ∧
      t.phase = if weight t.work.s ≤ 3 then .direct else .searchRight) ∧
    (s.phase = .direct → ∃ t, cycle s = .next t ∧ t.phase = .correction ∧
      t.work = { s.work with error := concat (zeroVec 12) s.work.s }) ∧
    (s.phase = .searchRight → ∃ t, cycle s = .next t ∧
      t.work = { s.work with sj := t.work.sj, M := t.work.M } ∧
      (∀ j : Index, t.work.sj[j] = vecXor s.work.s (column j b)) ∧
      (∀ j : Index, j ∈ t.work.M ↔ weight t.work.sj[j] ≤ 2) ∧ t.work.M.Pairwise (· < ·) ∧
      t.phase = if t.work.M.length = 0 then .noMatch else if t.work.M.length = 1 then .exactlyOneMatch
        else .multipleMatches) ∧
    (s.phase = .exactlyOneMatch → ∀ j : Index, s.work.M = [j] → ∃ t, cycle s = .next t ∧ t.phase = .correction ∧
      t.work = { s.work with j := j, error := concat (unitVector j) s.work.sj[j] }) ∧
    (s.phase = .multipleMatches → 2 ≤ s.work.M.length → ∃ (t : State) (j : Index), cycle s = .next t ∧
      t.phase = .correction ∧ t.work = { s.work with j := j, error := concat (unitVector j) s.work.sj[j] } ∧
      j ∈ s.work.M ∧ ∀ k ∈ s.work.M, weight s.work.sj[j] < weight s.work.sj[k] ∨
        (weight s.work.sj[j] = weight s.work.sj[k] ∧ j ≤ k)) ∧
    (s.phase = .noMatch → ∃ t, cycle s = .next t ∧ t.phase = .computeSyndrome2 ∧ t.work = s.work) ∧
    (s.phase = .computeSyndrome2 → ∃ t, cycle s = .next t ∧
      t.work = { s.work with s2 := vecMul s.work.s b, weight2 := weight (vecMul s.work.s b) } ∧
      t.phase = if t.work.weight2 ≤ 3 then .directLeft else .searchLeft) ∧
    (s.phase = .directLeft → ∃ t, cycle s = .next t ∧ t.phase = .correction ∧
      t.work = { s.work with error := concat s.work.s2 (zeroVec 12) }) ∧
    (s.phase = .searchLeft → ∀ j : Index, weight (vecXor s.work.s2 (column j b)) ≤ 2 →
      (∀ k : Index, k < j → 2 < weight (vecXor s.work.s2 (column k b))) → ∃ t, cycle s = .next t ∧
      t.phase = .correction ∧
      t.work = { s.work with j := j, t := vecXor s.work.s2 (column j b),
                             error := concat (vecXor s.work.s2 (column j b)) (unitVector j) }) ∧
    (s.phase = .searchLeft → (∀ k : Index, 2 < weight (vecXor s.work.s2 (column k b))) → ∃ t, cycle s = .next t ∧
      t.phase = .exhausted ∧ t.work = { s.work with t := t.work.t }) ∧
    (s.phase = .exhausted → s.config.compatFallback = true → ∃ t, cycle s = .next t ∧ t.phase = .correction ∧
      t.work = { s.work with error := zeroVec 24 }) ∧
    (s.phase = .exhausted → s.config.compatFallback = false → ∃ t, cycle s = .next t ∧ t.phase = .uncorrectable ∧
      t.work = s.work) ∧
    (s.phase = .uncorrectable → ∃ t, cycle s = .next t ∧ Offering t ∧
      t.work = { s.work with status := .uncorrectable, out := 0 }) ∧
    (s.phase = .correction → ∃ t, cycle s = .next t ∧ Offering t ∧
      t.work = { s.work with corrected := vecXor s.work.received s.work.error, status := .ok,
                             out := (busOf (firstHalf (vecXor s.work.received s.work.error))).setWidth 24 }) ∧
    (Offering s → s.pins.rspReady = true → ∃ t, cycle s = .next t ∧ t.busy = false ∧ t.phase = .idle)

/-- R116 and the bound under R117, which the spec marks as derived: the transition table, started by the accept,
reaches in at most eight more transitions exactly what the command does as one step. -/
def Obligations.TransitionTableReachesTheResponse : Prop :=
  ∀ (i : Instr) (s : State), ∃ n ≤ 8, advanceTimes n (latch i s) = exec i s

/-- R11: no step, whether it performs a command, a transition, a reset or nothing, changes the constants, nor does
anything the host puts on the pins; `G` and `Ht` are functions of `B`. (Nor does a step change the input pins.) -/
def Obligations.ConstantsNeverChange : Prop :=
  (∀ s t : State, step s = .next t ∨ cycle s = .next t → t.config = s.config ∧ t.pins = s.pins) ∧
  (∀ (s : State) (p : Pins), (drive p s).config = s.config) ∧
  ∀ b : Mat 12 12, generator b = hconcat identity b ∧ parityCheckT b = transpose (hconcat b identity)

/-- R24, which the spec marks as derived: whenever the core is left with no command in flight it is in one single
state, the one after reset. That the working values are then the ones named for reset is the model's choice (log
entries 3 and 4). -/
def Obligations.IdleStateIsOne : Prop :=
  ∀ s t : State, Coherent s → step s = .next t → t.busy = false → t = State.idleWith s.config s.pins

/-- R46, R37: without a reset, every accepted command is answered, once, in order, by the function of its word, in
both accounts of the ports; at most one response is still owed at the end. -/
def Obligations.PortRunAnswersInOrder : Prop :=
  ∀ (edge : State → Host.Outcome State Fault Refusal) (c : Config) (p0 : Pins) (ps : List Pins),
    edge = step ∨ edge = cycle → (∀ p ∈ ps, p.rst = false) →
    ∃ s', (portRun edge ps (State.idleWith c p0)).final = .next s' ∧
      (portRun edge ps (State.idleWith c p0)).accepted.map (response c)
        = (portRun edge ps (State.idleWith c p0)).given ++ owed s'

/-- R190: with resets at any time, responses can only be lost: those given are, in order, among the answers of the
accepted commands. What counts as given at an edge with `rst` is the model's reading (log entry 7). -/
def Obligations.PortRunWithResetsOnlyLosesResponses : Prop :=
  ∀ (edge : State → Host.Outcome State Fault Refusal) (c : Config) (p0 : Pins) (ps : List Pins),
    edge = step ∨ edge = cycle →
    ∃ s', (portRun edge ps (State.idleWith c p0)).final = .next s' ∧
      (portRun edge ps (State.idleWith c p0)).given.Sublist
        ((portRun edge ps (State.idleWith c p0)).accepted.map (response c))
end

