-- ==== Sys2Proof/Laws/Algebra.lean ====
section
/-! SUPPORT. The small lemmas of the GF(2) primitives: what each element of a result is, and the linear algebra the
claims about codes rest on. -/

namespace Sys2Proof.Machine

section Elements

variable {n m q : Nat}

theorem elem_eq_getMsbD (v : Vec n) (i : Fin n) : elem v i = v.getMsbD i := by
  simp [elem, BitVec.getMsb, BitVec.getMsbD_eq_getLsbD, BitVec.getLsb, BitVec.getLsbD]

/-- Two vectors with the same elements are equal. -/
theorem vec_ext {a b : Vec n} (h : ∀ i, elem a i = elem b i) : a = b := by
  apply BitVec.eq_of_getMsbD_eq
  intro i hi
  simpa [elem_eq_getMsbD] using h ⟨i, hi⟩

theorem vec_ext_iff {a b : Vec n} : a = b ↔ ∀ i, elem a i = elem b i :=
  ⟨fun h _ => h ▸ rfl, vec_ext⟩

@[simp] theorem elem_ofElems : {n : Nat} → (f : Fin n → Bool) → (i : Fin n) → elem (ofElems f) i = f i
  | 0, _, i => i.elim0
  | k + 1, f, i => by
    refine Fin.cases ?_ (fun j => ?_) i
    · rw [elem_eq_getMsbD, ofElems, BitVec.getMsbD_eq_getLsbD, BitVec.getLsbD_cons]
      simp
    · have h := elem_ofElems (fun l => f l.succ) j
      rw [elem_eq_getMsbD, BitVec.getMsbD_eq_getLsbD] at h
      have hj : k + 1 - 1 - (j.val + 1) = k - 1 - j.val := by omega
      have hne : k - 1 - j.val ≠ k := by omega
      simp only [ofElems, elem_eq_getMsbD, BitVec.getMsbD_eq_getLsbD, BitVec.getLsbD_cons, Fin.val_succ, hj, hne,
        if_false]
      simpa using h

@[simp] theorem elem_zeroVec (i : Fin n) : elem (zeroVec n) i = false := by
  simp [elem_eq_getMsbD, zeroVec]

@[simp] theorem elem_vecXor (a b : Vec n) (i : Fin n) : elem (vecXor a b) i = xor (elem a i) (elem b i) := by
  simp [elem_eq_getMsbD, vecXor]

@[simp] theorem elem_concat_left (a : Vec n) (b : Vec m) (i : Fin n) :
    elem (concat a b) (Fin.castAdd m i) = elem a i := by
  simp [elem_eq_getMsbD, concat, BitVec.getMsbD_append, Nat.not_le.mpr i.isLt]

@[simp] theorem elem_concat_right (a : Vec n) (b : Vec m) (i : Fin m) :
    elem (concat a b) (Fin.natAdd n i) = elem b i := by
  simp [elem_eq_getMsbD, concat, BitVec.getMsbD_append]

@[simp] theorem elem_unitVector (i j : Fin n) : elem (unitVector j) i = decide (i = j) := by
  simp [unitVector]

@[simp] theorem elem_firstHalf (c : Vec 24) (i : Fin 12) : elem (firstHalf c) i = elem c (Fin.castAdd 12 i) := by
  simp [firstHalf]

@[simp] theorem elem_secondHalf (c : Vec 24) (i : Fin 12) : elem (secondHalf c) i = elem c (Fin.natAdd 12 i) := by
  simp [secondHalf]

@[simp] theorem firstHalf_concat (a b : Vec 12) : firstHalf (concat a b) = a := vec_ext fun i => by
  rw [elem_firstHalf]; exact elem_concat_left a b i

@[simp] theorem secondHalf_concat (a b : Vec 12) : secondHalf (concat a b) = b := vec_ext fun i => by
  rw [elem_secondHalf]; exact elem_concat_right a b i

/-- A `Vector(24)` is determined by its two halves. -/
theorem halves_ext {c d : Vec 24} (h1 : firstHalf c = firstHalf d) (h2 : secondHalf c = secondHalf d) : c = d :=
  vec_ext fun i => by
    refine Fin.addCases (m := 12) (n := 12) (fun k => ?_) (fun k => ?_) i
    · simpa using vec_ext_iff.mp h1 k
    · simpa using vec_ext_iff.mp h2 k

@[simp] theorem concat_halves (c : Vec 24) : concat (firstHalf c) (secondHalf c) = c :=
  halves_ext (by simp) (by simp)

@[simp] theorem firstHalf_vecXor (c d : Vec 24) : firstHalf (vecXor c d) = vecXor (firstHalf c) (firstHalf d) :=
  vec_ext fun i => by simp

@[simp] theorem secondHalf_vecXor (c d : Vec 24) : secondHalf (vecXor c d) = vecXor (secondHalf c) (secondHalf d) :=
  vec_ext fun i => by simp

@[simp] theorem row_ofEntries (f : Fin n → Fin m → Bool) (i : Fin n) : row i (ofEntries f) = ofElems (f i) := by
  simp [row, ofEntries]

@[simp] theorem entry_ofEntries (f : Fin n → Fin m → Bool) (i : Fin n) (k : Fin m) :
    entry (ofEntries f) i k = f i k := by
  simp [entry]

/-- Two matrices with the same entries are equal. -/
theorem mat_ext {A C : Mat n m} (h : ∀ i k, entry A i k = entry C i k) : A = C := by
  apply Vector.ext
  intro i hi
  exact vec_ext fun k => h ⟨i, hi⟩ k

theorem mat_ext_iff {A C : Mat n m} : A = C ↔ ∀ i k, entry A i k = entry C i k :=
  ⟨fun h _ _ => h ▸ rfl, mat_ext⟩

@[simp] theorem row_zeroMat (i : Fin n) : row i (zeroMat n m) = zeroVec m := by
  simp [row, zeroMat]

@[simp] theorem entry_zeroMat (i : Fin n) (k : Fin m) : entry (zeroMat n m) i k = false := by
  simp [entry]

@[simp] theorem entry_transpose (A : Mat n m) (k : Fin m) (i : Fin n) : entry (transpose A) k i = entry A i k := by
  simp [transpose]

@[simp] theorem elem_row (A : Mat n m) (i : Fin n) (k : Fin m) : elem (row i A) k = entry A i k := rfl

@[simp] theorem elem_column (A : Mat n m) (k : Fin m) (i : Fin n) : elem (column k A) i = entry A i k := by
  simp [column]

@[simp] theorem row_hconcat (A : Mat n m) (C : Mat n q) (i : Fin n) :
    row i (hconcat A C) = concat (row i A) (row i C) := by
  simp [row, hconcat]

@[simp] theorem entry_hconcat_left (A : Mat n m) (C : Mat n q) (i : Fin n) (k : Fin m) :
    entry (hconcat A C) i (Fin.castAdd q k) = entry A i k := by
  rw [entry, row_hconcat, elem_concat_left, elem_row]

@[simp] theorem entry_hconcat_right (A : Mat n m) (C : Mat n q) (i : Fin n) (k : Fin q) :
    entry (hconcat A C) i (Fin.natAdd m k) = entry C i k := by
  rw [entry, row_hconcat, elem_concat_right, elem_row]

@[simp] theorem entry_identity (i k : Fin 12) : entry identity i k = decide (i = k) := by
  simp [identity]

theorem symmetric_iff (A : Mat n n) : IsSymmetric A ↔ ∀ i k, entry A i k = entry A k i := by
  constructor
  · intro h i k
    conv_lhs => rw [← h]
    simp
  · intro h
    exact mat_ext fun i k => by simp [h i k]

end Elements

section Xor

variable {n : Nat}

@[simp] theorem vecXor_self (a : Vec n) : vecXor a a = zeroVec n := by simp [vecXor, zeroVec]

@[simp] theorem vecXor_zero (a : Vec n) : vecXor a (zeroVec n) = a := by simp [vecXor, zeroVec]

@[simp] theorem zero_vecXor (a : Vec n) : vecXor (zeroVec n) a = a := by simp [vecXor, zeroVec]

theorem vecXor_comm (a b : Vec n) : vecXor a b = vecXor b a := BitVec.xor_comm a b

theorem vecXor_assoc (a b c : Vec n) : vecXor (vecXor a b) c = vecXor a (vecXor b c) := BitVec.xor_assoc a b c

@[simp] theorem vecXor_cancel_right (a b : Vec n) : vecXor (vecXor a b) b = a := by
  rw [vecXor_assoc, vecXor_self, vecXor_zero]

@[simp] theorem vecXor_cancel_left (a b : Vec n) : vecXor a (vecXor a b) = b := by
  rw [← vecXor_assoc, vecXor_self, zero_vecXor]

theorem vecXor_eq_zero_iff (a b : Vec n) : vecXor a b = zeroVec n ↔ a = b := by
  constructor
  · intro h
    rw [← vecXor_cancel_right a b, h, zero_vecXor]
  · rintro rfl
    exact vecXor_self a

end Xor

section Sums

theorem xorReduce_map_xor {α : Type} (l : List α) (f g : α → Bool) :
    xorReduce (l.map fun x => xor (f x) (g x)) = xor (xorReduce (l.map f)) (xorReduce (l.map g)) := by
  induction l with
  | nil => rfl
  | cons x l ih =>
    simp only [xorReduce, List.map_cons, List.foldr_cons] at ih ⊢
    rw [ih]
    cases f x <;> cases g x <;> simp

theorem xorReduce_map_false {α : Type} (l : List α) : xorReduce (l.map fun _ => false) = false := by
  induction l with
  | nil => rfl
  | cons x l ih => simpa [xorReduce] using ih

/-- Only one term of the sum can be 1. -/
theorem xorReduce_map_single {α : Type} [DecidableEq α] (l : List α) (hl : l.Nodup) (a : α) (f : α → Bool) :
    xorReduce (l.map fun x => decide (x = a) && f x) = (decide (a ∈ l) && f a) := by
  induction l with
  | nil => rfl
  | cons x l ih =>
    have hx : x ∉ l := (List.nodup_cons.mp hl).1
    have ih' := ih (List.nodup_cons.mp hl).2
    simp only [xorReduce, List.map_cons, List.foldr_cons] at ih' ⊢
    rw [ih']
    by_cases h : x = a
    · subst h; simp [hx]
    · have : a ≠ x := fun e => h e.symm
      simp [h, this]

theorem xorReduce_append (l r : List Bool) : xorReduce (l ++ r) = xor (xorReduce l) (xorReduce r) := by
  induction l with
  | nil => simp [xorReduce]
  | cons x l ih =>
    simp only [xorReduce, List.cons_append, List.foldr_cons] at ih ⊢
    rw [ih]
    ac_rfl

end Sums

section Product

variable {n m q : Nat}

@[simp] theorem elem_vecMul (v : Vec n) (C : Mat n q) (k : Fin q) :
    elem (vecMul v C) k = xorReduce ((List.finRange n).map fun t => elem v t && entry C t k) := by
  simp [vecMul]

/-- Row i of a product is row i of the left factor times the right factor (R71). -/
theorem row_matMul (A : Mat n m) (C : Mat m q) (i : Fin n) : row i (matMul A C) = vecMul (row i A) C :=
  vec_ext fun k => by simp [matMul]

theorem entry_matMul (A : Mat n m) (C : Mat m q) (i : Fin n) (k : Fin q) :
    entry (matMul A C) i k = xorReduce ((List.finRange m).map fun t => entry A i t && entry C t k) := by
  simp [matMul]

/-- The product is linear in the vector (R71). -/
theorem vecMul_vecXor (a b : Vec n) (C : Mat n q) :
    vecMul (vecXor a b) C = vecXor (vecMul a C) (vecMul b C) :=
  vec_ext fun k => by
    simp only [elem_vecMul, elem_vecXor, ← xorReduce_map_xor]
    congr 1
    apply List.map_congr_left
    intro t _
    cases elem a t <;> cases elem b t <;> simp

@[simp] theorem vecMul_zero (C : Mat n q) : vecMul (zeroVec n) C = zeroVec q :=
  vec_ext fun k => by simpa using xorReduce_map_false (List.finRange n)

/-- `unit_vector(j) · A = row_j(A)` (R80). -/
@[simp] theorem vecMul_unitVector (j : Fin n) (C : Mat n q) : vecMul (unitVector j) C = row j C :=
  vec_ext fun k => by
    have h := xorReduce_map_single (List.finRange n) (List.nodup_finRange n) j (fun t => entry C t k)
    simpa using h

/-- A vector times the identity is itself. -/
@[simp] theorem vecMul_identity (v : Vec 12) : vecMul v identity = v :=
  vec_ext fun k => by
    have h := xorReduce_map_single (List.finRange 12) (List.nodup_finRange 12) k (fun t => elem v t)
    have e : ((List.finRange 12).map fun t => elem v t && decide (t = k))
        = (List.finRange 12).map fun t => decide (t = k) && elem v t :=
      List.map_congr_left fun t _ => Bool.and_comm _ _
    simpa [e] using h

theorem vecMul_hconcat (v : Vec n) (A : Mat n m) (C : Mat n q) :
    vecMul v (hconcat A C) = concat (vecMul v A) (vecMul v C) :=
  vec_ext fun k => by
    refine Fin.addCases (fun i => ?_) (fun i => ?_) k
    · rw [elem_concat_left]; simp
    · rw [elem_concat_right]; simp

theorem row_eq_column_of_symmetric {b : Mat 12 12} (h : IsSymmetric b) (j : Index) : column j b = row j b :=
  vec_ext fun i => by simpa using (symmetric_iff b).mp h i j

/-- Linearity over a sum of vectors. -/
theorem elem_foldr_vecXor {α : Type} (l : List α) (f : α → Vec q) (k : Fin q) :
    elem (l.foldr (fun x acc => vecXor (f x) acc) (zeroVec q)) k = xorReduce (l.map fun x => elem (f x) k) := by
  induction l with
  | nil => simp [xorReduce]
  | cons x l ih =>
    simp only [xorReduce, List.foldr_cons, List.map_cons, elem_vecXor] at ih ⊢
    rw [ih]

theorem vecMul_foldr {α : Type} (l : List α) (f : α → Vec n) (C : Mat n q) :
    vecMul (l.foldr (fun x acc => vecXor (f x) acc) (zeroVec n)) C
      = l.foldr (fun x acc => vecXor (vecMul (f x) C) acc) (zeroVec q) := by
  induction l with
  | nil => simp
  | cons x l ih => simp only [List.foldr_cons, vecMul_vecXor, ih]

/-- `v · C` is the XOR of the rows of `C` that `v` selects (R71). -/
theorem vecMul_eq_rows (v : Vec n) (C : Mat n q) :
    vecMul v C = (List.finRange n).foldr
      (fun t acc => vecXor (if elem v t then row t C else zeroVec q) acc) (zeroVec q) :=
  vec_ext fun k => by
    rw [elem_foldr_vecXor, elem_vecMul]
    congr 1
    apply List.map_congr_left
    intro t _
    cases elem v t <;> simp

/-- A product of products associates. -/
theorem vecMul_matMul (v : Vec n) (A : Mat n m) (C : Mat m q) : vecMul v (matMul A C) = vecMul (vecMul v A) C := by
  rw [vecMul_eq_rows v (matMul A C), vecMul_eq_rows v A, vecMul_foldr]
  congr 1
  funext t acc
  cases elem v t <;> simp [row_matMul]

/-- The sum over 24 indices is the sum over the two halves. -/
theorem finRange_24 : List.finRange 24
    = (List.finRange 12).map (Fin.castAdd 12) ++ (List.finRange 12).map (Fin.natAdd 12) := by decide

/-- `(r · [A over C])[k]`, one half of r at a time. -/
theorem elem_vecMul_24 (r : Vec 24) (C : Mat 24 q) (k : Fin q) :
    elem (vecMul r C) k
      = xor (xorReduce ((List.finRange 12).map fun t => elem (firstHalf r) t && entry C (Fin.castAdd 12 t) k))
          (xorReduce ((List.finRange 12).map fun t => elem (secondHalf r) t && entry C (Fin.natAdd 12 t) k)) := by
  rw [elem_vecMul, finRange_24, List.map_append, xorReduce_append, List.map_map, List.map_map]
  simp only [elem_firstHalf, elem_secondHalf]
  rfl

end Product

section Weight

variable {n m : Nat}

theorem weight_le (v : Vec n) : weight v ≤ n := by
  simpa [weight] using List.countP_le_length (p := fun i => elem v i) (l := List.finRange n)

theorem countP_xor_le {α : Type} (l : List α) (p r : α → Bool) :
    l.countP (fun x => xor (p x) (r x)) ≤ l.countP p + l.countP r := by
  induction l with
  | nil => simp
  | cons x l ih =>
    simp only [List.countP_cons]
    cases p x <;> cases r x <;> simp <;> omega

/-- The weight of a sum is at most the sum of the weights. -/
theorem weight_vecXor_le (a b : Vec n) : weight (vecXor a b) ≤ weight a + weight b := by
  simpa [weight] using countP_xor_le (List.finRange n) (fun i => elem a i) (fun i => elem b i)

@[simp] theorem weight_zeroVec (n : Nat) : weight (zeroVec n) = 0 := by simp [weight]

theorem weight_eq_zero_iff (v : Vec n) : weight v = 0 ↔ v = zeroVec n := by
  constructor
  · intro h
    apply vec_ext
    intro i
    have := List.countP_eq_zero.mp h i (List.mem_finRange i)
    simpa using this
  · rintro rfl
    exact weight_zeroVec n

/-- `weight([a | b]) = weight(a) + weight(b)` (R76), for the two halves of a codeword. -/
theorem weight_24 (c : Vec 24) : weight c = weight (firstHalf c) + weight (secondHalf c) := by
  simp only [weight, finRange_24, List.countP_append, List.countP_map, elem_firstHalf, elem_secondHalf]
  rfl

theorem weight_concat (a b : Vec 12) : weight (concat a b) = weight a + weight b := by
  have h := weight_24 (concat a b)
  rwa [firstHalf_concat, secondHalf_concat] at h

@[simp] theorem weight_unitVector (j : Fin n) : weight (unitVector j) = 1 := by
  have h : (List.finRange n).countP (fun i => decide (i = j)) = (List.finRange n).count j := rfl
  simp only [weight, elem_unitVector]
  rw [h, List.count_eq_one_of_mem (List.nodup_finRange n) (List.mem_finRange j)]

/-- A vector of weight 1 is a unit vector. -/
theorem exists_unitVector_of_weight_one (v : Vec n) (h : weight v = 1) : ∃ j, v = unitVector j := by
  have hl : ((List.finRange n).filter fun i => elem v i).length = 1 := by
    rw [← List.countP_eq_length_filter]; exact h
  obtain ⟨j, hj⟩ := List.length_eq_one_iff.mp hl
  refine ⟨j, vec_ext fun i => ?_⟩
  have hm : i ∈ (List.finRange n).filter (fun i => elem v i) ↔ i = j := by rw [hj]; simp
  simp only [List.mem_filter, List.mem_finRange, true_and] at hm
  rw [elem_unitVector]
  by_cases e : i = j
  · simpa [e] using hm.mpr e
  · have : elem v i = false := by
      cases hv : elem v i with
      | false => rfl
      | true => exact absurd (hm.mp hv) e
    simp [e, this]

end Weight

end Sys2Proof.Machine
end

