-- ==== Sys2Proof/Laws/State.lean ====
section
/-! SUPPORT. One lemma per field of State for each named update, so that no proof unfolds a record update. The
working values are one field here, `work`; an equation for it says which of them the update writes. -/

namespace Sys2Proof.Machine

section

variable (p : Phase) (s : State)

@[simp] theorem goto_config : (goto p s).config = s.config := rfl

@[simp] theorem goto_pins : (goto p s).pins = s.pins := rfl

@[simp] theorem goto_busy : (goto p s).busy = s.busy := rfl

@[simp] theorem goto_phase : (goto p s).phase = p := rfl

@[simp] theorem goto_rspValid : (goto p s).rspValid = s.rspValid := rfl

@[simp] theorem goto_work : (goto p s).work = s.work := rfl

end

section

variable (op : Op) (len : BitVec 5) (payload : Payload) (s : State)

@[simp] theorem accept_config : (accept op len payload s).config = s.config := rfl

@[simp] theorem accept_pins : (accept op len payload s).pins = s.pins := rfl

@[simp] theorem accept_busy : (accept op len payload s).busy = true := rfl

@[simp] theorem accept_phase : (accept op len payload s).phase = .checkLength := rfl

@[simp] theorem accept_rspValid : (accept op len payload s).rspValid = s.rspValid := rfl

@[simp] theorem accept_work :
    (accept op len payload s).work = { s.work with op := op, len := len, payload := payload } := rfl

end

section

variable (st : Status) (out : Payload) (s : State)

@[simp] theorem respondWith_config : (respondWith st out s).config = s.config := rfl

@[simp] theorem respondWith_pins : (respondWith st out s).pins = s.pins := rfl

@[simp] theorem respondWith_busy : (respondWith st out s).busy = s.busy := rfl

@[simp] theorem respondWith_phase : (respondWith st out s).phase = .respond := rfl

@[simp] theorem respondWith_rspValid : (respondWith st out s).rspValid = true := rfl

@[simp] theorem respondWith_work : (respondWith st out s).work = { s.work with status := st, out := out } := rfl

end

section

variable (k : ErrorKind) (s : State)

@[simp] theorem raiseKind_config : (raiseKind k s).config = s.config := rfl

@[simp] theorem raiseKind_pins : (raiseKind k s).pins = s.pins := rfl

@[simp] theorem raiseKind_busy : (raiseKind k s).busy = s.busy := rfl

@[simp] theorem raiseKind_phase : (raiseKind k s).phase = .respond := rfl

@[simp] theorem raiseKind_rspValid : (raiseKind k s).rspValid = true := rfl

@[simp] theorem raiseKind_work : (raiseKind k s).work = { s.work with status := kindStatus k, out := 0 } := rfl

end

section

variable (s : State)

@[simp] theorem giveResponse_config : (giveResponse s).config = s.config := rfl

@[simp] theorem giveResponse_pins : (giveResponse s).pins = s.pins := rfl

@[simp] theorem giveResponse_busy : (giveResponse s).busy = false := rfl

@[simp] theorem giveResponse_phase : (giveResponse s).phase = .idle := rfl

@[simp] theorem giveResponse_rspValid : (giveResponse s).rspValid = false := rfl

@[simp] theorem giveResponse_work : (giveResponse s).work = Work.initial := rfl

end

section

variable (s : State)

@[simp] theorem resetEvent_config : (resetEvent s).config = s.config := rfl

@[simp] theorem resetEvent_pins : (resetEvent s).pins = s.pins := rfl

@[simp] theorem resetEvent_busy : (resetEvent s).busy = false := rfl

@[simp] theorem resetEvent_phase : (resetEvent s).phase = .idle := rfl

@[simp] theorem resetEvent_rspValid : (resetEvent s).rspValid = false := rfl

@[simp] theorem resetEvent_work : (resetEvent s).work = Work.initial := rfl

end

section

variable (s : State)

@[simp] theorem offerResponse_config : (offerResponse s).config = s.config := rfl

@[simp] theorem offerResponse_pins : (offerResponse s).pins = s.pins := rfl

@[simp] theorem offerResponse_busy : (offerResponse s).busy = s.busy := rfl

@[simp] theorem offerResponse_phase : (offerResponse s).phase = s.phase := rfl

@[simp] theorem offerResponse_rspValid : (offerResponse s).rspValid = true := rfl

@[simp] theorem offerResponse_work : (offerResponse s).work = s.work := rfl

end

section

variable (s : State)

@[simp] theorem encodeStep_config : (encodeStep s).config = s.config := rfl

@[simp] theorem encodeStep_pins : (encodeStep s).pins = s.pins := rfl

@[simp] theorem encodeStep_busy : (encodeStep s).busy = s.busy := rfl

@[simp] theorem encodeStep_phase : (encodeStep s).phase = .respond := rfl

@[simp] theorem encodeStep_rspValid : (encodeStep s).rspValid = true := rfl

@[simp] theorem encodeStep_work :
    (encodeStep s).work = { s.work with
        data := dataOperand s.work.payload
        codeword := encodeData s.config.b (dataOperand s.work.payload)
        status := .ok
        out := encPayload (encodeData s.config.b (dataOperand s.work.payload)) } :=
  rfl

end

section

variable (s : State)

@[simp] theorem assembleReceived_config : (assembleReceived s).config = s.config := rfl

@[simp] theorem assembleReceived_pins : (assembleReceived s).pins = s.pins := rfl

@[simp] theorem assembleReceived_busy : (assembleReceived s).busy = s.busy := rfl

@[simp] theorem assembleReceived_phase : (assembleReceived s).phase = s.phase := rfl

@[simp] theorem assembleReceived_rspValid : (assembleReceived s).rspValid = s.rspValid := rfl

@[simp] theorem assembleReceived_work :
    (assembleReceived s).work = { s.work with received := receivedOperand s.work.payload } := rfl

end

section

variable (s : State)

@[simp] theorem computeSyndrome_config : (computeSyndrome s).config = s.config := rfl

@[simp] theorem computeSyndrome_pins : (computeSyndrome s).pins = s.pins := rfl

@[simp] theorem computeSyndrome_busy : (computeSyndrome s).busy = s.busy := rfl

@[simp] theorem computeSyndrome_phase : (computeSyndrome s).phase = s.phase := rfl

@[simp] theorem computeSyndrome_rspValid : (computeSyndrome s).rspValid = s.rspValid := rfl

@[simp] theorem computeSyndrome_work :
    (computeSyndrome s).work = { s.work with s := syndrome s.config.b s.work.received } := rfl

end

section

variable (s : State)

@[simp] theorem direct_config : (direct s).config = s.config := rfl

@[simp] theorem direct_pins : (direct s).pins = s.pins := rfl

@[simp] theorem direct_busy : (direct s).busy = s.busy := rfl

@[simp] theorem direct_phase : (direct s).phase = s.phase := rfl

@[simp] theorem direct_rspValid : (direct s).rspValid = s.rspValid := rfl

@[simp] theorem direct_work : (direct s).work = { s.work with error := concat (zeroVec 12) s.work.s } := rfl

end

section

variable (s : State)

@[simp] theorem searchRight_config : (searchRight s).config = s.config := rfl

@[simp] theorem searchRight_pins : (searchRight s).pins = s.pins := rfl

@[simp] theorem searchRight_busy : (searchRight s).busy = s.busy := rfl

@[simp] theorem searchRight_phase : (searchRight s).phase = s.phase := rfl

@[simp] theorem searchRight_rspValid : (searchRight s).rspValid = s.rspValid := rfl

@[simp] theorem searchRight_work :
    (searchRight s).work = { s.work with
        sj := Vector.ofFn fun j => candidate s.config.b s.work.s j
        M := matchSet (Vector.ofFn fun j => candidate s.config.b s.work.s j) } :=
  rfl

end

section

variable (j : Index) (s : State)

@[simp] theorem exactlyOneMatch_config : (exactlyOneMatch j s).config = s.config := rfl

@[simp] theorem exactlyOneMatch_pins : (exactlyOneMatch j s).pins = s.pins := rfl

@[simp] theorem exactlyOneMatch_busy : (exactlyOneMatch j s).busy = s.busy := rfl

@[simp] theorem exactlyOneMatch_phase : (exactlyOneMatch j s).phase = s.phase := rfl

@[simp] theorem exactlyOneMatch_rspValid : (exactlyOneMatch j s).rspValid = s.rspValid := rfl

@[simp] theorem exactlyOneMatch_work :
    (exactlyOneMatch j s).work = { s.work with j := j, error := concat (unitVector j) s.work.sj[j] } := rfl

end

section

variable (j : Index) (rest : List Index) (s : State)

@[simp] theorem multipleMatches_config : (multipleMatches j rest s).config = s.config := rfl

@[simp] theorem multipleMatches_pins : (multipleMatches j rest s).pins = s.pins := rfl

@[simp] theorem multipleMatches_busy : (multipleMatches j rest s).busy = s.busy := rfl

@[simp] theorem multipleMatches_phase : (multipleMatches j rest s).phase = s.phase := rfl

@[simp] theorem multipleMatches_rspValid : (multipleMatches j rest s).rspValid = s.rspValid := rfl

@[simp] theorem multipleMatches_work :
    (multipleMatches j rest s).work = { s.work with
        j := lightest s.work.sj j rest
        error := concat (unitVector (lightest s.work.sj j rest)) s.work.sj[lightest s.work.sj j rest] } :=
  rfl

end

section

variable (s : State)

@[simp] theorem computeSyndrome2_config : (computeSyndrome2 s).config = s.config := rfl

@[simp] theorem computeSyndrome2_pins : (computeSyndrome2 s).pins = s.pins := rfl

@[simp] theorem computeSyndrome2_busy : (computeSyndrome2 s).busy = s.busy := rfl

@[simp] theorem computeSyndrome2_phase : (computeSyndrome2 s).phase = s.phase := rfl

@[simp] theorem computeSyndrome2_rspValid : (computeSyndrome2 s).rspValid = s.rspValid := rfl

@[simp] theorem computeSyndrome2_work :
    (computeSyndrome2 s).work = { s.work with
        s2 := vecMul s.work.s s.config.b, weight2 := weight (vecMul s.work.s s.config.b) } :=
  rfl

end

section

variable (s : State)

@[simp] theorem directLeft_config : (directLeft s).config = s.config := rfl

@[simp] theorem directLeft_pins : (directLeft s).pins = s.pins := rfl

@[simp] theorem directLeft_busy : (directLeft s).busy = s.busy := rfl

@[simp] theorem directLeft_phase : (directLeft s).phase = s.phase := rfl

@[simp] theorem directLeft_rspValid : (directLeft s).rspValid = s.rspValid := rfl

@[simp] theorem directLeft_work : (directLeft s).work = { s.work with error := concat s.work.s2 (zeroVec 12) } := rfl

end

section

variable (j : Index) (s : State)

@[simp] theorem searchLeftMatch_config : (searchLeftMatch j s).config = s.config := rfl

@[simp] theorem searchLeftMatch_pins : (searchLeftMatch j s).pins = s.pins := rfl

@[simp] theorem searchLeftMatch_busy : (searchLeftMatch j s).busy = s.busy := rfl

@[simp] theorem searchLeftMatch_phase : (searchLeftMatch j s).phase = s.phase := rfl

@[simp] theorem searchLeftMatch_rspValid : (searchLeftMatch j s).rspValid = s.rspValid := rfl

@[simp] theorem searchLeftMatch_work :
    (searchLeftMatch j s).work = { s.work with
        j := j
        t := candidate s.config.b s.work.s2 j
        error := concat (candidate s.config.b s.work.s2 j) (unitVector j) } :=
  rfl

end

section

variable (s : State)

@[simp] theorem searchLeftNone_config : (searchLeftNone s).config = s.config := rfl

@[simp] theorem searchLeftNone_pins : (searchLeftNone s).pins = s.pins := rfl

@[simp] theorem searchLeftNone_busy : (searchLeftNone s).busy = s.busy := rfl

@[simp] theorem searchLeftNone_phase : (searchLeftNone s).phase = s.phase := rfl

@[simp] theorem searchLeftNone_rspValid : (searchLeftNone s).rspValid = s.rspValid := rfl

@[simp] theorem searchLeftNone_work :
    (searchLeftNone s).work = { s.work with t := candidate s.config.b s.work.s2 11 } := rfl

end

section

variable (s : State)

@[simp] theorem compatFallback_config : (compatFallback s).config = s.config := rfl

@[simp] theorem compatFallback_pins : (compatFallback s).pins = s.pins := rfl

@[simp] theorem compatFallback_busy : (compatFallback s).busy = s.busy := rfl

@[simp] theorem compatFallback_phase : (compatFallback s).phase = s.phase := rfl

@[simp] theorem compatFallback_rspValid : (compatFallback s).rspValid = s.rspValid := rfl

@[simp] theorem compatFallback_work : (compatFallback s).work = { s.work with error := zeroVec 24 } := rfl

end

section

variable (s : State)

@[simp] theorem correction_config : (correction s).config = s.config := rfl

@[simp] theorem correction_pins : (correction s).pins = s.pins := rfl

@[simp] theorem correction_busy : (correction s).busy = s.busy := rfl

@[simp] theorem correction_phase : (correction s).phase = .respond := rfl

@[simp] theorem correction_rspValid : (correction s).rspValid = true := rfl

@[simp] theorem correction_work :
    (correction s).work = { s.work with
        corrected := vecXor s.work.received s.work.error
        status := .ok
        out := decPayload (vecXor s.work.received s.work.error) } :=
  rfl

end

section

variable (s : State)

@[simp] theorem uncorrectable_config : (uncorrectable s).config = s.config := rfl

@[simp] theorem uncorrectable_pins : (uncorrectable s).pins = s.pins := rfl

@[simp] theorem uncorrectable_busy : (uncorrectable s).busy = s.busy := rfl

@[simp] theorem uncorrectable_phase : (uncorrectable s).phase = .respond := rfl

@[simp] theorem uncorrectable_rspValid : (uncorrectable s).rspValid = true := rfl

@[simp] theorem uncorrectable_work :
    (uncorrectable s).work = { s.work with status := .uncorrectable, out := 0 } := rfl

end

section

variable (p : Pins) (s : State)

@[simp] theorem drive_config : (drive p s).config = s.config := rfl

@[simp] theorem drive_pins : (drive p s).pins = p := rfl

@[simp] theorem drive_busy : (drive p s).busy = s.busy := rfl

@[simp] theorem drive_phase : (drive p s).phase = s.phase := rfl

@[simp] theorem drive_rspValid : (drive p s).rspValid = s.rspValid := rfl

@[simp] theorem drive_work : (drive p s).work = s.work := rfl

end

end Sys2Proof.Machine
end

