-- ==== Sys2Proof/Laws/Decoder.lean ====
section
/-! SUPPORT. One lemma per shared operation of the decoder: what the searches find, and which working values each
branch of `DEC` ends with. -/

namespace Sys2Proof.Machine

section Codes

variable (b : Mat 12 12)

theorem encodeData_eq (d : Vec 12) : encodeData b d = concat d (vecMul d b) := by
  rw [encodeData, generator, vecMul_hconcat, vecMul_identity]

@[simp] theorem firstHalf_encodeData (d : Vec 12) : firstHalf (encodeData b d) = d := by
  rw [encodeData_eq, firstHalf_concat]

@[simp] theorem secondHalf_encodeData (d : Vec 12) : secondHalf (encodeData b d) = vecMul d b := by
  rw [encodeData_eq, secondHalf_concat]

@[simp] theorem entry_parityCheckT_upper (t k : Index) : entry (parityCheckT b) (Fin.castAdd 12 t) k = entry b k t := by
  rw [parityCheckT, entry_transpose, entry_hconcat_left]

@[simp] theorem entry_parityCheckT_lower (t k : Index) :
    entry (parityCheckT b) (Fin.natAdd 12 t) k = decide (k = t) := by
  rw [parityCheckT, entry_transpose, entry_hconcat_right, entry_identity]

theorem eq_comm_decide (t k : Index) : decide (k = t) = decide (t = k) := decide_eq_decide.mpr eq_comm

/-- Passing the static check is having `G · Ht` = 0 (R92). -/
theorem staticCheck_eq_true_iff : staticCheck b = true ↔ invariantProduct b = zeroMat 12 12 := decide_eq_true_iff

/-- `r · Ht = (r1 · transpose(B)) XOR r2` (R94). -/
theorem syndrome_eq (r : Vec 24) : syndrome b r = vecXor (vecMul (firstHalf r) (transpose b)) (secondHalf r) :=
  vec_ext fun k => by
    have h := xorReduce_map_single (List.finRange 12) (List.nodup_finRange 12) k fun t => elem (secondHalf r) t
    have e : ((List.finRange 12).map fun t => elem (secondHalf r) t && entry (parityCheckT b) (Fin.natAdd 12 t) k)
        = (List.finRange 12).map fun t => decide (t = k) && elem (secondHalf r) t :=
      List.map_congr_left fun t _ => by rw [entry_parityCheckT_lower, Bool.and_comm, eq_comm_decide]
    rw [syndrome, elem_vecMul_24, e, h, elem_vecXor, elem_vecMul]
    simp only [entry_parityCheckT_upper, entry_transpose, List.mem_finRange, decide_true, Bool.true_and]

theorem syndrome_vecXor (x y : Vec 24) : syndrome b (vecXor x y) = vecXor (syndrome b x) (syndrome b y) :=
  vecMul_vecXor x y _

end Codes

section Searches

variable (b : Mat 12 12) (s : Vec 12)

/-- `M` of the twelve candidates, with the candidates written out. -/
theorem matchSet_candidates : (matchSet (Vector.ofFn fun j => candidate b s j))
    = (List.finRange 12).filter fun j => decide (weight (candidate b s j) ≤ 2) := by
  simp [matchSet, thresholdRight]

/-- j is in `M` exactly when its candidate has weight at most 2 (R104). -/
theorem mem_matchSet (sj : Vector (Vec 12) 12) (j : Index) : j ∈ matchSet sj ↔ weight sj[j] ≤ 2 := by
  simp [matchSet, thresholdRight]

theorem finRange_12_pairwise : (List.finRange 12).Pairwise (· < ·) := by decide

/-- `M` is listed in increasing order. -/
theorem matchSet_pairwise (sj : Vector (Vec 12) 12) : (matchSet sj).Pairwise (· < ·) :=
  finRange_12_pairwise.filter _

/-- The empty `M` (R107). -/
theorem matchSet_eq_nil_iff (sj : Vector (Vec 12) 12) : matchSet sj = [] ↔ ∀ j : Index, 2 < weight sj[j] := by
  simp [matchSet, thresholdRight, List.filter_eq_nil_iff]

/-- The `M` of one element (R105). -/
theorem matchSet_eq_singleton (sj : Vector (Vec 12) 12) (j : Index) (h : ∀ k : Index, weight sj[k] ≤ 2 ↔ k = j) :
    matchSet sj = [j] := by
  have h' : matchSet sj = (List.finRange 12).filter fun k => decide (k = j) :=
    List.filter_congr fun k _ => by simp only [thresholdRight, h k]
  rw [h']
  clear h h'
  revert j
  decide

/-- The pair (weight, index) of j is lexicographically at most that of k (R106). -/
def lexLe (sj : Vector (Vec 12) 12) (j k : Index) : Prop :=
  weight sj[j] < weight sj[k] ∨ (weight sj[j] = weight sj[k] ∧ j ≤ k)

theorem lexLe_refl (sj : Vector (Vec 12) 12) (j : Index) : lexLe sj j j := .inr ⟨rfl, le_refl j⟩

theorem lexLe_trans {sj : Vector (Vec 12) 12} {i j k : Index} (h : lexLe sj i j) (h' : lexLe sj j k) :
    lexLe sj i k := by
  rcases h with h | ⟨h, hi⟩ <;> rcases h' with h' | ⟨h', hi'⟩
  · exact .inl (lt_trans h h')
  · exact .inl (h' ▸ h)
  · exact .inl (h ▸ h')
  · exact .inr ⟨h.trans h', le_trans hi hi'⟩

theorem lexLe_antisymm {sj : Vector (Vec 12) 12} {j k : Index} (h : lexLe sj j k) (h' : lexLe sj k j) : j = k := by
  rcases h with h | ⟨h, hi⟩ <;> rcases h' with h' | ⟨h', hi'⟩
  · exact absurd (lt_trans h h') (lt_irrefl _)
  · exact absurd h (h' ▸ lt_irrefl _)
  · exact absurd h' (h ▸ lt_irrefl _)
  · exact le_antisymm hi hi'

/-- `lightest` finds an element of its list, and none of them is lexicographically less (R106). -/
theorem lightest_spec (sj : Vector (Vec 12) 12) (best : Index) (rest : List Index) :
    lightest sj best rest ∈ best :: rest ∧ ∀ k ∈ best :: rest, lexLe sj (lightest sj best rest) k := by
  induction rest generalizing best with
  | nil => simp [lightest, lexLe_refl]
  | cons k rest ih =>
    obtain ⟨hm, hle⟩ := ih (if lighter sj k best then k else best)
    have hb : lexLe sj (if lighter sj k best then k else best) best ∧
        lexLe sj (if lighter sj k best then k else best) k := by
      by_cases h : lighter sj k best = true
      · rw [if_pos h]
        refine ⟨?_, lexLe_refl sj k⟩
        simp only [lighter, Bool.or_eq_true, Bool.and_eq_true, decide_eq_true_eq] at h
        exact h.imp id fun h => ⟨h.1, le_of_lt h.2⟩
      · rw [if_neg h]
        refine ⟨lexLe_refl sj best, ?_⟩
        simp only [lighter, Bool.or_eq_true, Bool.and_eq_true, decide_eq_true_eq, not_or, not_and, not_lt] at h
        exact (lt_or_eq_of_le h.1).imp id fun e => ⟨e, h.2 e.symm⟩
    refine ⟨?_, fun l hl => ?_⟩
    · rcases List.mem_cons.mp hm with e | hm
      · rw [lightest, e]
        split <;> simp
      · exact List.mem_cons_of_mem _ (List.mem_cons_of_mem _ hm)
    · have h0 := hle _ (List.mem_cons_self ..)
      rcases List.mem_cons.mp hl with rfl | hl
      · exact lexLe_trans h0 hb.1
      · rcases List.mem_cons.mp hl with rfl | hl
        · exact lexLe_trans h0 hb.2
        · exact hle l (List.mem_cons_of_mem _ hl)

/-- Of the matches, `lightest` takes the lexicographically least, whichever it is (R106). -/
theorem lightest_eq (sj : Vector (Vec 12) 12) (best : Index) (rest : List Index) (j : Index)
    (hj : j ∈ best :: rest) (h : ∀ k ∈ best :: rest, lexLe sj j k) : lightest sj best rest = j :=
  lexLe_antisymm ((lightest_spec sj best rest).2 j hj) (h _ (lightest_spec sj best rest).1)

/-- Where `SearchLeft` stops, it stops at the first column that qualifies (R110). -/
theorem firstLeft_eq_some_iff (s2 : Vec 12) (j : Index) :
    firstLeft b s2 = some j ↔
      weight (candidate b s2 j) ≤ 2 ∧ ∀ k : Index, k < j → 2 < weight (candidate b s2 k) := by
  unfold firstLeft
  constructor
  · intro h
    have hj := List.find?_some h
    obtain ⟨_, as, bs, hl, hn⟩ := List.find?_eq_some_iff_append.mp h
    refine ⟨by simpa [thresholdLeft] using hj, fun k hk => ?_⟩
    have hmem : k ∈ List.finRange 12 := List.mem_finRange k
    have hp := finRange_12_pairwise
    rw [hl] at hmem hp
    rcases List.mem_append.mp hmem with hk' | hk'
    · simpa [thresholdLeft] using hn k hk'
    · rcases List.mem_cons.mp hk' with rfl | hk'
      · exact absurd hk (lt_irrefl _)
      · exact absurd (lt_trans hk ((List.pairwise_cons.mp (List.pairwise_append.mp hp).2.1).1 k hk')) (lt_irrefl _)
  · rintro ⟨hj, hn⟩
    rcases e : (List.finRange 12).find? fun j => decide (weight (candidate b s2 j) ≤ thresholdLeft) with _ | k
    · have := List.find?_eq_none.mp e j (List.mem_finRange j)
      simp [thresholdLeft, hj] at this
    · have hk := List.find?_some e
      obtain ⟨_, as, bs, hl, hkn⟩ := List.find?_eq_some_iff_append.mp e
      have hk2 : weight (candidate b s2 k) ≤ 2 := by simpa [thresholdLeft] using hk
      rcases lt_trichotomy k j with h | h | h
      · exact absurd hk2 (Nat.not_le.mpr (hn k h))
      · rw [h]
      · have hmem : j ∈ List.finRange 12 := List.mem_finRange j
        have hp := finRange_12_pairwise
        rw [hl] at hmem hp
        rcases List.mem_append.mp hmem with hj' | hj'
        · have := hkn j hj'
          simp [thresholdLeft, hj] at this
        · rcases List.mem_cons.mp hj' with rfl | hj'
          · rfl
          · exact absurd (lt_trans h ((List.pairwise_cons.mp (List.pairwise_append.mp hp).2.1).1 j hj')) (lt_irrefl _)

/-- `SearchLeft` is exhausted exactly when no column qualifies (R110). -/
theorem firstLeft_eq_none_iff (s2 : Vec 12) :
    firstLeft b s2 = none ↔ ∀ j : Index, 2 < weight (candidate b s2 j) := by
  simp [firstLeft, thresholdLeft, List.find?_eq_none]

end Searches

/-! ### The branches of `errpat`, in the machine's terms -/

section Errpat

variable (c : Config) (s : Vec 12)

/-- The twelve candidates `s_j` (R104). -/
abbrev candidates (b : Mat 12 12) (s : Vec 12) : Vector (Vec 12) 12 := Vector.ofFn fun j => candidate b s j

theorem getElem_candidates (b : Mat 12 12) (s : Vec 12) (j : Index) : (candidates b s)[j] = candidate b s j := by
  simp

theorem errpat_eq : errpat c s =
    if weight s ≤ 3 then some (concat (zeroVec 12) s) else
    match matchSet (candidates c.b s) with
    | first :: rest =>
      some (concat (unitVector (lightest (candidates c.b s) first rest))
        (candidate c.b s (lightest (candidates c.b s) first rest)))
    | [] =>
      if weight (vecMul s c.b) ≤ 3 then some (concat (vecMul s c.b) (zeroVec 12)) else
      match firstLeft c.b (vecMul s c.b) with
      | some j => some (concat (candidate c.b (vecMul s c.b) j) (unitVector j))
      | none => if c.compatFallback then some (zeroVec 24) else none := by
  rw [matchSet_candidates]
  rfl

theorem errpat_direct (h : weight s ≤ 3) : errpat c s = some (concat (zeroVec 12) s) := by
  rw [errpat_eq, if_pos h]

theorem errpat_right (h : 3 < weight s) (j : Index) (rest : List Index)
    (hM : matchSet (candidates c.b s) = j :: rest) :
    errpat c s = some (concat (unitVector (lightest (candidates c.b s) j rest))
      (candidate c.b s (lightest (candidates c.b s) j rest))) := by
  rw [errpat_eq, if_neg (Nat.not_le.mpr h), hM]

theorem errpat_directLeft (h : 3 < weight s) (hM : matchSet (candidates c.b s) = [])
    (h2 : weight (vecMul s c.b) ≤ 3) : errpat c s = some (concat (vecMul s c.b) (zeroVec 12)) := by
  rw [errpat_eq, if_neg (Nat.not_le.mpr h), hM]
  exact if_pos h2

theorem errpat_searchLeft (h : 3 < weight s) (hM : matchSet (candidates c.b s) = [])
    (h2 : 3 < weight (vecMul s c.b)) (j : Index) (hj : firstLeft c.b (vecMul s c.b) = some j) :
    errpat c s = some (concat (candidate c.b (vecMul s c.b) j) (unitVector j)) := by
  rw [errpat_eq, if_neg (Nat.not_le.mpr h), hM]
  refine (if_neg (Nat.not_le.mpr h2)).trans ?_
  rw [hj]

theorem errpat_exhausted (h : 3 < weight s) (hM : matchSet (candidates c.b s) = [])
    (h2 : 3 < weight (vecMul s c.b)) (hn : firstLeft c.b (vecMul s c.b) = none) :
    errpat c s = if c.compatFallback then some (zeroVec 24) else none := by
  rw [errpat_eq, if_neg (Nat.not_le.mpr h), hM]
  refine (if_neg (Nat.not_le.mpr h2)).trans ?_
  rw [hn]

/-- The five ways the case analysis of R103 to R111 ends, each with the error vector it forms. -/
theorem errpat_cases :
    (weight s ≤ 3 ∧ errpat c s = some (concat (zeroVec 12) s)) ∨
    (3 < weight s ∧ ∃ j : Index, weight (candidate c.b s j) ≤ 2 ∧
      errpat c s = some (concat (unitVector j) (candidate c.b s j))) ∨
    (3 < weight s ∧ (∀ k : Index, 2 < weight (candidate c.b s k)) ∧ weight (vecMul s c.b) ≤ 3 ∧
      errpat c s = some (concat (vecMul s c.b) (zeroVec 12))) ∨
    (3 < weight s ∧ (∀ k : Index, 2 < weight (candidate c.b s k)) ∧ 3 < weight (vecMul s c.b) ∧
      ∃ j : Index, weight (candidate c.b (vecMul s c.b) j) ≤ 2 ∧
        errpat c s = some (concat (candidate c.b (vecMul s c.b) j) (unitVector j))) ∨
    (3 < weight s ∧ (∀ k : Index, 2 < weight (candidate c.b s k)) ∧ 3 < weight (vecMul s c.b) ∧
      (∀ k : Index, 2 < weight (candidate c.b (vecMul s c.b) k)) ∧
        errpat c s = if c.compatFallback then some (zeroVec 24) else none) := by
  rcases Nat.lt_or_ge 3 (weight s) with h | h
  · rcases hM : matchSet (candidates c.b s) with _ | ⟨j, rest⟩
    · have hn : ∀ k : Index, 2 < weight (candidate c.b s k) := fun k => by
        have := (matchSet_eq_nil_iff _).mp hM k
        rwa [getElem_candidates] at this
      rcases Nat.lt_or_ge 3 (weight (vecMul s c.b)) with h2 | h2
      · rcases hj : firstLeft c.b (vecMul s c.b) with _ | j
        · exact .inr (.inr (.inr (.inr
            ⟨h, hn, h2, (firstLeft_eq_none_iff _ _).mp hj, errpat_exhausted c s h hM h2 hj⟩)))
        · exact .inr (.inr (.inr (.inl
            ⟨h, hn, h2, j, ((firstLeft_eq_some_iff _ _ _).mp hj).1, errpat_searchLeft c s h hM h2 j hj⟩)))
      · exact .inr (.inr (.inl ⟨h, hn, h2, errpat_directLeft c s h hM h2⟩))
    · have hm := (lightest_spec (candidates c.b s) j rest).1
      rw [← hM, mem_matchSet, getElem_candidates] at hm
      exact .inr (.inl ⟨h, _, hm, errpat_right c s h j rest hM⟩)
  · exact .inl ⟨h, errpat_direct c s h⟩

end Errpat

section Branches

variable (payload : Payload) (s : State)

/-- The state of a well-formed `DEC` once its syndrome is computed (R101, R102). -/
def withSyndrome (payload : Payload) (s : State) : State :=
  computeSyndrome (assembleReceived (accept .dec 24#5 payload s))

/-- ... and once `SearchRight` has run (R104). -/
def withSearch (payload : Payload) (s : State) : State := searchRight (withSyndrome payload s)

/-- ... and found nothing, and the second syndrome is computed (R107, R108). -/
def withSyndrome2 (payload : Payload) (s : State) : State := computeSyndrome2 (withSearch payload s)

@[simp] theorem withSyndrome_config : (withSyndrome payload s).config = s.config := rfl

@[simp] theorem withSearch_config : (withSearch payload s).config = s.config := rfl

@[simp] theorem withSyndrome2_config : (withSyndrome2 payload s).config = s.config := rfl

theorem execDec_wrongLength (len : BitVec 5) (h : len ≠ 24#5) :
    execDec len payload s = .next (raiseKind .invalidLength (accept .dec len payload s)) := by
  simp [execDec, requiredLen, h]

/-- `DEC` of a well-formed command, with its intermediate states named (R121). -/
theorem execDec_eq : execDec 24#5 payload s =
    if weight (withSyndrome payload s).work.s ≤ 3 then .next (correction (direct (withSyndrome payload s))) else
    match (withSearch payload s).work.M with
    | [j] => .next (correction (exactlyOneMatch j (withSearch payload s)))
    | j :: k :: rest => .next (correction (multipleMatches j (k :: rest) (withSearch payload s)))
    | [] =>
      if (withSyndrome2 payload s).work.weight2 ≤ 3 then
        .next (correction (directLeft (withSyndrome2 payload s))) else
      match firstLeft (withSyndrome2 payload s).config.b (withSyndrome2 payload s).work.s2 with
      | some j => .next (correction (searchLeftMatch j (withSyndrome2 payload s)))
      | none =>
        if (searchLeftNone (withSyndrome2 payload s)).config.compatFallback then
          .next (correction (compatFallback (searchLeftNone (withSyndrome2 payload s))))
        else .next (uncorrectable (searchLeftNone (withSyndrome2 payload s))) := by
  unfold execDec
  rw [if_neg (by simp [requiredLen])]
  rfl

theorem execDec_direct (h : weight (withSyndrome payload s).work.s ≤ 3) :
    execDec 24#5 payload s = .next (correction (direct (withSyndrome payload s))) := by
  rw [execDec_eq, if_pos h]

theorem execDec_one (h : 3 < weight (withSyndrome payload s).work.s) (j : Index)
    (hM : (withSearch payload s).work.M = [j]) :
    execDec 24#5 payload s = .next (correction (exactlyOneMatch j (withSearch payload s))) := by
  rw [execDec_eq, if_neg (Nat.not_le.mpr h), hM]

theorem execDec_many (h : 3 < weight (withSyndrome payload s).work.s) (j k : Index) (rest : List Index)
    (hM : (withSearch payload s).work.M = j :: k :: rest) :
    execDec 24#5 payload s = .next (correction (multipleMatches j (k :: rest) (withSearch payload s))) := by
  rw [execDec_eq, if_neg (Nat.not_le.mpr h), hM]

theorem execDec_directLeft (h : 3 < weight (withSyndrome payload s).work.s) (hM : (withSearch payload s).work.M = [])
    (h2 : (withSyndrome2 payload s).work.weight2 ≤ 3) :
    execDec 24#5 payload s = .next (correction (directLeft (withSyndrome2 payload s))) := by
  rw [execDec_eq, if_neg (Nat.not_le.mpr h), hM]
  exact if_pos h2

theorem execDec_searchLeft (h : 3 < weight (withSyndrome payload s).work.s) (hM : (withSearch payload s).work.M = [])
    (h2 : 3 < (withSyndrome2 payload s).work.weight2) (j : Index)
    (hj : firstLeft s.config.b (withSyndrome2 payload s).work.s2 = some j) :
    execDec 24#5 payload s = .next (correction (searchLeftMatch j (withSyndrome2 payload s))) := by
  rw [execDec_eq, if_neg (Nat.not_le.mpr h), hM]
  refine (if_neg (Nat.not_le.mpr h2)).trans ?_
  rw [withSyndrome2_config, hj]

theorem execDec_exhausted (h : 3 < weight (withSyndrome payload s).work.s) (hM : (withSearch payload s).work.M = [])
    (h2 : 3 < (withSyndrome2 payload s).work.weight2)
    (hn : firstLeft s.config.b (withSyndrome2 payload s).work.s2 = none) :
    execDec 24#5 payload s =
      if s.config.compatFallback then
        .next (correction (compatFallback (searchLeftNone (withSyndrome2 payload s))))
      else .next (uncorrectable (searchLeftNone (withSyndrome2 payload s))) := by
  rw [execDec_eq, if_neg (Nat.not_le.mpr h), hM]
  refine (if_neg (Nat.not_le.mpr h2)).trans ?_
  rw [withSyndrome2_config, hn]
  rfl

end Branches

end Sys2Proof.Machine
end

