-- ==== Sys2Proof/Laws/Codes.lean ====
section
/-! SUPPORT. When a structure block gives a code of minimum distance 8 (45_properties.md R147, R150): it is enough to
look at sums of at most three rows. -/

namespace Sys2Proof.Machine

theorem countP_xor_of_disjoint {α : Type} (l : List α) (p r : α → Bool) (h : ∀ x, (p x && r x) = false) :
    l.countP (fun x => xor (p x) (r x)) = l.countP p + l.countP r := by
  induction l with
  | nil => rfl
  | cons x l ih =>
    have hx := h x
    simp only [List.countP_cons]
    cases hp : p x <;> cases hr : r x <;> simp [hp, hr] at hx ⊢ <;> omega

/-- The weight of a sum of vectors that share no 1. -/
theorem weight_vecXor_of_disjoint {n : Nat} (a b : Vec n) (h : ∀ i, (elem a i && elem b i) = false) :
    weight (vecXor a b) = weight a + weight b := by
  simpa [weight] using countP_xor_of_disjoint (List.finRange n) (fun i => elem a i) (fun i => elem b i) h

/-- A vector of weight w + 1 is a unit vector plus a vector of weight w that is 0 there. -/
theorem exists_unitVector_of_weight_succ {n w : Nat} (v : Vec n) (h : weight v = w + 1) :
    ∃ (j : Fin n) (u : Vec n), v = vecXor (unitVector j) u ∧ weight u = w ∧ elem u j = false := by
  have hpos : 0 < (List.finRange n).countP fun i => elem v i := by
    have h' : (List.finRange n).countP (fun i => elem v i) = w + 1 := h
    omega
  obtain ⟨j, _, hj⟩ := List.countP_pos_iff.mp hpos
  let u : Vec n := ofElems fun i => elem v i && !decide (i = j)
  have hu : ∀ i, elem u i = (elem v i && !decide (i = j)) := fun i => elem_ofElems _ i
  have hv : v = vecXor (unitVector j) u := vec_ext fun i => by
    rw [elem_vecXor, elem_unitVector, hu]
    by_cases e : i = j
    · subst e; simp [hj]
    · simp [e]
  refine ⟨j, u, hv, ?_, by rw [hu]; simp⟩
  have hw := weight_vecXor_of_disjoint (unitVector j) u fun i => by
    rw [elem_unitVector, hu]
    by_cases e : i = j <;> simp [e]
  rw [← hv, h, weight_unitVector] at hw
  omega

/-- (P3) from (P2) and the weights of the sums of one, two and three different rows. -/
theorem P3_of_rows {b : Mat 12 12} (h2 : P2 b) (w1 : ∀ i : Index, 7 ≤ weight (row i b))
    (w2 : ∀ i j : Index, i ≠ j → 6 ≤ weight (vecXor (row i b) (row j b)))
    (w3 : ∀ i j k : Index, i ≠ j → j ≠ k → i ≠ k →
      5 ≤ weight (vecXor (row i b) (vecXor (row j b) (row k b)))) : P3 b := by
  have light : ∀ v : Vec 12, v ≠ zeroVec 12 → weight v ≤ 3 → 8 ≤ weight v + weight (vecMul v b) := by
    intro v hv hw
    have h0 : weight v ≠ 0 := fun h => hv ((weight_eq_zero_iff v).mp h)
    obtain ⟨i, u, rfl, hu, hui⟩ := exists_unitVector_of_weight_succ (w := weight v - 1) v (by omega)
    rcases Nat.lt_or_ge 0 (weight u) with hu0 | hu0
    · obtain ⟨j, x, rfl, hx, hxj⟩ := exists_unitVector_of_weight_succ (w := weight u - 1) u (by omega)
      have hij : i ≠ j := fun e => by subst e; simp [hxj] at hui
      rcases Nat.lt_or_ge 0 (weight x) with hx0 | hx0
      · obtain ⟨k, rfl⟩ := exists_unitVector_of_weight_one x (by omega)
        have hjk : j ≠ k := fun e => by simp [e] at hxj
        have hik : i ≠ k := fun e => by subst e; simp [hij] at hui
        have := w3 i j k hij hjk hik
        simp only [vecMul_vecXor, vecMul_unitVector]
        rw [weight_unitVector] at hx
        omega
      · obtain rfl := (weight_eq_zero_iff x).mp (by omega)
        have := w2 i j hij
        simp only [vecMul_vecXor, vecMul_unitVector, vecXor_zero]
        simp only [vecXor_zero] at hu hw
        rw [weight_unitVector] at hu
        omega
    · obtain rfl := (weight_eq_zero_iff u).mp (by omega)
      have := w1 i
      simp only [vecXor_zero, vecMul_unitVector, weight_unitVector]
      omega
  intro d hd
  by_cases hw : weight d ≤ 3
  · exact light d hd hw
  · have hz : vecMul d b ≠ zeroVec 12 := fun h => hd <| by
      rw [← vecMul_identity d, ← h2, vecMul_matMul, h, vecMul_zero]
    by_cases hw' : weight (vecMul d b) ≤ 3
    · have := light (vecMul d b) hz hw'
      rw [← vecMul_matMul, h2, vecMul_identity] at this
      omega
    · omega

end Sys2Proof.Machine
end

