-- ==== Sys2Proof/Laws/Words.lean ====
section
/-! SUPPORT. The fields of a command word and of a response word: writing a field and reading it back. -/

namespace Sys2Proof

theorem getLsbD_packCommand (op : Op) (len : BitVec 5) (payload : Payload) (i : Nat) :
    (packCommand op len payload).getLsbD i
      = if i < 24 then payload.getLsbD i else if i < 29 then len.getLsbD (i - 24) else (opBit op).getLsbD (i - 29) := by
  unfold packCommand
  rw [BitVec.getLsbD_append, BitVec.getLsbD_append]
  by_cases h1 : i < 24
  · have : i < 24 + 5 := by omega
    simp [h1, this]
  · by_cases h2 : i < 29
    · simp [h1, h2]
    · simp [h1, h2]

@[simp] theorem fieldOp_packCommand (op : Op) (len : BitVec 5) (payload : Payload) :
    fieldOp (packCommand op len payload) = opBit op := by
  apply BitVec.eq_of_getLsbD_eq
  intro i hi
  have h1 : ¬ 29 + i < 24 := by omega
  have h2 : ¬ 29 + i < 29 := by omega
  have h3 : 29 + i - 29 = i := by omega
  rw [fieldOp, BitVec.getLsbD_extractLsb', getLsbD_packCommand, if_neg h1, if_neg h2, h3]
  simp [hi]

@[simp] theorem fieldLen_packCommand (op : Op) (len : BitVec 5) (payload : Payload) :
    fieldLen (packCommand op len payload) = len := by
  apply BitVec.eq_of_getLsbD_eq
  intro i hi
  have h1 : ¬ 24 + i < 24 := by omega
  have h2 : 24 + i < 29 := by omega
  have h3 : 24 + i - 24 = i := by omega
  rw [fieldLen, BitVec.getLsbD_extractLsb', getLsbD_packCommand, if_neg h1, if_pos h2, h3]
  simp [hi]

@[simp] theorem fieldPayload_packCommand (op : Op) (len : BitVec 5) (payload : Payload) :
    fieldPayload (packCommand op len payload) = payload := by
  apply BitVec.eq_of_getLsbD_eq
  intro i hi
  have h1 : 0 + i < 24 := by omega
  have h3 : 0 + i = i := by omega
  rw [fieldPayload, BitVec.getLsbD_extractLsb', getLsbD_packCommand, if_pos h1, h3]
  simp [hi]

/-- A command word is made of its three fields. -/
theorem bits_of_fields (w : CmdWord) (i : Nat) (hi : i < 30) :
    w.getLsbD i
      = if i < 24 then (fieldPayload w).getLsbD i
        else if i < 29 then (fieldLen w).getLsbD (i - 24) else (fieldOp w).getLsbD (i - 29) := by
  simp only [fieldPayload, fieldLen, fieldOp, BitVec.getLsbD_extractLsb']
  by_cases h1 : i < 24
  · simp [h1]
  · by_cases h2 : i < 29
    · have h3 : 24 + (i - 24) = i := by omega
      have h4 : i - 24 < 5 := by omega
      simp [h1, h2, h3, h4]
    · have h3 : 29 + (i - 29) = i := by omega
      have h4 : i - 29 < 1 := by omega
      simp [h1, h2, h3, h4]

/-- Putting the fields of a word together gives the word, whichever operation its `OP` bit names. -/
theorem packCommand_fields (w : CmdWord) (op : Op) (h : opBit op = fieldOp w) :
    packCommand op (fieldLen w) (fieldPayload w) = w := by
  apply BitVec.eq_of_getLsbD_eq
  intro i hi
  rw [getLsbD_packCommand, bits_of_fields w i hi, h]

/-- The `OP` bit is 0 or 1 (R48: no other value). -/
theorem fieldOp_cases (w : CmdWord) : fieldOp w = 0#1 ∨ fieldOp w = 1#1 := by
  generalize fieldOp w = x
  revert x
  decide

theorem decode_enc (w : CmdWord) (h : fieldOp w = 0#1) : decode w = .enc (fieldLen w) (fieldPayload w) := if_pos h

theorem decode_dec (w : CmdWord) (h : fieldOp w = 1#1) : decode w = .dec (fieldLen w) (fieldPayload w) := by
  unfold decode
  rw [h]
  exact if_neg (by decide)

/-- The mask of the six bits `OP` and `LEN` keeps those two fields and clears the payload. -/
theorem fieldMask_eq (w : CmdWord) (op : Op) (h : opBit op = fieldOp w) :
    w &&& 0x3F000000#30 = packCommand op (fieldLen w) 0 := by
  apply BitVec.eq_of_getLsbD_eq
  intro i hi
  have hm : (0x3F000000#30).getLsbD i = decide (24 ≤ i) := by
    revert i
    decide
  rw [BitVec.getLsbD_and, hm, getLsbD_packCommand, bits_of_fields w i hi, h]
  by_cases h1 : i < 24
  · simp [h1]
  · simp [h1, Nat.not_lt.mp h1]

/-- A word matches a pattern of the command table exactly when `OP` and `LEN` are the pattern's. -/
theorem fieldMask_eq_iff (w : CmdWord) (op : Op) (len : BitVec 5) :
    w &&& 0x3F000000#30 = packCommand op len 0 ↔ fieldOp w = opBit op ∧ fieldLen w = len := by
  constructor
  · intro h
    have key : ∀ op', opBit op' = fieldOp w → fieldOp w = opBit op ∧ fieldLen w = len := fun op' h' => by
      have e := (fieldMask_eq w op' h').symm.trans h
      have e1 := congrArg fieldOp e
      have e2 := congrArg fieldLen e
      rw [fieldOp_packCommand, fieldOp_packCommand] at e1
      rw [fieldLen_packCommand, fieldLen_packCommand] at e2
      exact ⟨h'.symm.trans e1, e2⟩
    rcases fieldOp_cases w with h0 | h0
    · exact key .enc h0.symm
    · exact key .dec h0.symm
  · rintro ⟨h1, rfl⟩
    exact fieldMask_eq w op h1.symm

namespace Machine

/-- The fields of a response word (R52). -/
theorem getLsbD_packResponse (st : Status) (out : Payload) (i : Nat) :
    (packResponse st out).getLsbD i = if i < 24 then out.getLsbD i else (statusCode st).getLsbD (i - 24) := by
  unfold packResponse
  rw [BitVec.getLsbD_append]

@[simp] theorem payload_packResponse (st : Status) (out : Payload) :
    (packResponse st out).extractLsb' 0 24 = out := by
  apply BitVec.eq_of_getLsbD_eq
  intro i hi
  have h3 : 0 + i = i := by omega
  rw [BitVec.getLsbD_extractLsb', getLsbD_packResponse, h3, if_pos hi]
  simp [hi]

@[simp] theorem status_packResponse (st : Status) (out : Payload) :
    (packResponse st out).extractLsb' 24 3 = statusCode st := by
  apply BitVec.eq_of_getLsbD_eq
  intro i hi
  have h1 : ¬ 24 + i < 24 := by omega
  have h3 : 24 + i - 24 = i := by omega
  rw [BitVec.getLsbD_extractLsb', getLsbD_packResponse, if_neg h1, h3]
  simp [hi]

end Machine

end Sys2Proof
end

