-- ==== Sys2Proof/Laws/PerInstr.lean ====
section
/-! SUPPORT. What holds of every command as syntax: it is well formed exactly when its word matches its row of the
command table (30_encoding.md R57, R58). -/

namespace Sys2Proof.Laws.TablePattern

/-- The pattern of a command's row under the mask 0x3F000000: `OP` and the length it requires. -/
def pattern : Instr → CmdWord
  | .enc _ _ => 0x0C000000
  | .dec _ _ => 0x38000000

/-- A command is well formed exactly when its word matches the row. -/
def Statement (i : Instr) : Prop := WellFormed i ↔ encode i &&& 0x3F000000#30 = pattern i

theorem enc (len : BitVec 5) (payload : Payload) : Statement (.enc len payload) := by
  have h := fieldMask_eq_iff (packCommand .enc len payload) .enc 12#5
  simp only [fieldOp_packCommand, fieldLen_packCommand, true_and] at h
  have hw : WellFormed (.enc len payload) ↔ len = 12#5 := by simp [WellFormed, wellFormed, requiredLen]
  exact hw.trans h.symm

theorem dec (len : BitVec 5) (payload : Payload) : Statement (.dec len payload) := by
  have h := fieldMask_eq_iff (packCommand .dec len payload) .dec 24#5
  simp only [fieldOp_packCommand, fieldLen_packCommand, true_and] at h
  have hw : WellFormed (.dec len payload) ↔ len = 24#5 := by simp [WellFormed, wellFormed, requiredLen]
  exact hw.trans h.symm

end Sys2Proof.Laws.TablePattern
end

