-- ==== Sys2Proof/Laws/Step.lean ====
section
/-! SUPPORT. What the machine's steps can do, said once: one equation for each phase of `advance`, and the case
lemmas of `step` and `cycle`. -/

namespace Sys2Proof.Machine

/-! ### The rows of R117, one by one -/

section Rows

variable {s : State}

theorem advance_idle (h : s.phase = .idle) : advance s = .fault .phaseUndefined := by
  unfold advance; rw [h]

theorem advance_checkLength_wrong (h : s.phase = .checkLength) (hl : s.work.len ≠ requiredLen s.work.op) :
    advance s = .next (raiseKind .invalidLength s) := by
  unfold advance; rw [h]; exact if_pos hl

theorem advance_checkLength_enc (h : s.phase = .checkLength) (ho : s.work.op = .enc) (hl : s.work.len = 12#5) :
    advance s = .next (goto .encode s) := by
  unfold advance; rw [h]; simp [ho, hl, requiredLen]

theorem advance_checkLength_dec (h : s.phase = .checkLength) (ho : s.work.op = .dec) (hl : s.work.len = 24#5) :
    advance s = .next (goto .computeSyndrome (assembleReceived s)) := by
  unfold advance; rw [h]; simp [ho, hl, requiredLen]

theorem advance_encode (h : s.phase = .encode) : advance s = .next (encodeStep s) := by
  unfold advance; rw [h]

theorem advance_computeSyndrome_direct (h : s.phase = .computeSyndrome)
    (hw : weight (computeSyndrome s).work.s ≤ 3) :
    advance s = .next (goto .direct (computeSyndrome s)) := by
  unfold advance; rw [h]; simp only [if_pos hw]

theorem advance_computeSyndrome_search (h : s.phase = .computeSyndrome)
    (hw : 3 < weight (computeSyndrome s).work.s) :
    advance s = .next (goto .searchRight (computeSyndrome s)) := by
  unfold advance; rw [h]; simp only [if_neg (Nat.not_le.mpr hw)]

theorem advance_direct (h : s.phase = .direct) : advance s = .next (goto .correction (direct s)) := by
  unfold advance; rw [h]

theorem advance_searchRight (h : s.phase = .searchRight) :
    advance s = .next (goto (afterSearchRight (searchRight s).work.M) (searchRight s)) := by
  unfold advance; rw [h]

theorem advance_exactlyOneMatch (h : s.phase = .exactlyOneMatch) (j : Index) (hM : s.work.M = [j]) :
    advance s = .next (goto .correction (exactlyOneMatch j s)) := by
  unfold advance; rw [h]; simp only [hM]

theorem advance_multipleMatches (h : s.phase = .multipleMatches) (j k : Index) (rest : List Index)
    (hM : s.work.M = j :: k :: rest) :
    advance s = .next (goto .correction (multipleMatches j (k :: rest) s)) := by
  unfold advance; rw [h]; simp only [hM]

theorem advance_noMatch (h : s.phase = .noMatch) : advance s = .next (goto .computeSyndrome2 s) := by
  unfold advance; rw [h]

theorem advance_computeSyndrome2_direct (h : s.phase = .computeSyndrome2)
    (hw : (computeSyndrome2 s).work.weight2 ≤ 3) :
    advance s = .next (goto .directLeft (computeSyndrome2 s)) := by
  unfold advance; rw [h]; simp only [if_pos hw]

theorem advance_computeSyndrome2_search (h : s.phase = .computeSyndrome2)
    (hw : 3 < (computeSyndrome2 s).work.weight2) :
    advance s = .next (goto .searchLeft (computeSyndrome2 s)) := by
  unfold advance; rw [h]; simp only [if_neg (Nat.not_le.mpr hw)]

theorem advance_directLeft (h : s.phase = .directLeft) : advance s = .next (goto .correction (directLeft s)) := by
  unfold advance; rw [h]

theorem advance_searchLeft_match (h : s.phase = .searchLeft) (j : Index)
    (hj : firstLeft s.config.b s.work.s2 = some j) :
    advance s = .next (goto .correction (searchLeftMatch j s)) := by
  unfold advance; rw [h]; simp only [hj]

theorem advance_searchLeft_none (h : s.phase = .searchLeft) (hn : firstLeft s.config.b s.work.s2 = none) :
    advance s = .next (goto .exhausted (searchLeftNone s)) := by
  unfold advance; rw [h]; simp only [hn]

theorem advance_exhausted_compat (h : s.phase = .exhausted) (hc : s.config.compatFallback = true) :
    advance s = .next (goto .correction (compatFallback s)) := by
  unfold advance; rw [h]; simp only [hc, if_true]

theorem advance_exhausted_report (h : s.phase = .exhausted) (hc : s.config.compatFallback = false) :
    advance s = .next (goto .uncorrectable s) := by
  unfold advance; rw [h]; simp [hc]

theorem advance_uncorrectable (h : s.phase = .uncorrectable) : advance s = .next (uncorrectable s) := by
  unfold advance; rw [h]

theorem advance_correction (h : s.phase = .correction) : advance s = .next (correction s) := by
  unfold advance; rw [h]

theorem advance_respond_offer (h : s.phase = .respond) (hv : s.rspValid = false) :
    advance s = .next (offerResponse s) := by
  unfold advance; rw [h]; simp [hv]

theorem advance_respond_give (h : s.phase = .respond) (hv : s.rspValid = true) (hr : s.pins.rspReady = true) :
    advance s = .next (giveResponse s) := by
  unfold advance; rw [h]; simp [hv, hr]

theorem advance_respond_hold (h : s.phase = .respond) (hv : s.rspValid = true) (hr : s.pins.rspReady = false) :
    advance s = .next s := by
  unfold advance; rw [h]; simp [hv, hr]

end Rows

/-! ### The steps -/

/-- Everything a step can be: a reset, a transition, a command, or waiting. -/
theorem step_cases (s : State) :
    (s.pins.rst = true ∧ step s = .next (resetEvent s)) ∨
    (s.pins.rst = false ∧ s.busy = true ∧ step s = advance s) ∨
    (s.pins.rst = false ∧ s.busy = false ∧ s.pins.cmdValid = true ∧ step s = exec (decode s.pins.cmd) s) ∨
    (s.pins.rst = false ∧ s.busy = false ∧ s.pins.cmdValid = false ∧ step s = .next s) := by
  unfold step
  cases s.pins.rst <;> cases s.busy <;> cases s.pins.cmdValid <;> simp

/-- Everything a step of the fine account can be. -/
theorem cycle_cases (s : State) :
    (s.pins.rst = true ∧ cycle s = .next (resetEvent s)) ∨
    (s.pins.rst = false ∧ s.busy = true ∧ cycle s = advance s) ∨
    (s.pins.rst = false ∧ s.busy = false ∧ s.pins.cmdValid = true ∧
      cycle s = .next (latch (decode s.pins.cmd) s)) ∨
    (s.pins.rst = false ∧ s.busy = false ∧ s.pins.cmdValid = false ∧ cycle s = .next s) := by
  unfold cycle
  cases s.pins.rst <;> cases s.busy <;> cases s.pins.cmdValid <;> simp

theorem exec_enc (len : BitVec 5) (payload : Payload) (s : State) :
    exec (.enc len payload) s = execEnc len payload s := rfl

theorem exec_dec (len : BitVec 5) (payload : Payload) (s : State) :
    exec (.dec len payload) s = execDec len payload s := rfl

theorem execEnc_wellFormed (payload : Payload) (s : State) :
    execEnc 12#5 payload s = .next (encodeStep (accept .enc 12#5 payload s)) := by
  simp [execEnc, requiredLen]

theorem execEnc_wrongLength (len : BitVec 5) (payload : Payload) (s : State) (h : len ≠ 12#5) :
    execEnc len payload s = .next (raiseKind .invalidLength (accept .enc len payload s)) := by
  simp [execEnc, requiredLen, h]

/-! ### What `DEC` ends with -/

/-- Where `SearchRight` goes, by the size of `M` (R117). -/
theorem afterSearchRight_cases (M : List Index) :
    (M = [] ∧ afterSearchRight M = .noMatch) ∨ (M.length = 1 ∧ afterSearchRight M = .exactlyOneMatch) ∨
      (2 ≤ M.length ∧ afterSearchRight M = .multipleMatches) := by
  rcases M with _ | ⟨a, _ | ⟨b, r⟩⟩ <;> simp [afterSearchRight]

section Ends

variable (payload : Payload) (s : State)

theorem withSyndrome_s : (withSyndrome payload s).work.s = syndrome s.config.b (receivedOperand payload) := rfl

theorem withSearch_sj : (withSearch payload s).work.sj
    = candidates s.config.b (syndrome s.config.b (receivedOperand payload)) := rfl

theorem withSearch_M : (withSearch payload s).work.M
    = matchSet (candidates s.config.b (syndrome s.config.b (receivedOperand payload))) := rfl

theorem withSyndrome2_s2 : (withSyndrome2 payload s).work.s2
    = vecMul (syndrome s.config.b (receivedOperand payload)) s.config.b := rfl

theorem withSyndrome2_weight2 : (withSyndrome2 payload s).work.weight2
    = weight (vecMul (syndrome s.config.b (receivedOperand payload)) s.config.b) := rfl

/-- A well-formed `DEC` has corrected its word with the error vector `e`, and written nothing but decoder values. -/
def CorrectedFrom (payload : Payload) (s : State) (e : Vec 24) (t : State) : Prop :=
  CorrectedBy e t ∧ t.config = s.config ∧ t.pins = s.pins ∧ t.work.op = .dec ∧ t.work.len = 24#5 ∧
    t.work.payload = payload ∧ t.work.received = receivedOperand payload ∧ t.work.data = s.work.data ∧
    t.work.codeword = s.work.codeword

/-- Every well-formed `DEC` completes: with `errpat` of its syndrome as the error vector, or in `Uncorrectable`. -/
theorem execDec_cases : ∃ t, execDec 24#5 payload s = .next t ∧
    ((∃ e, errpat s.config (syndrome s.config.b (receivedOperand payload)) = some e ∧
        CorrectedFrom payload s e t) ∨
      (errpat s.config (syndrome s.config.b (receivedOperand payload)) = none ∧ s.config.compatFallback = false ∧
        t = uncorrectable (searchLeftNone (withSyndrome2 payload s)))) := by
  generalize hσ : syndrome s.config.b (receivedOperand payload) = σ
  have hsσ : (withSyndrome payload s).work.s = σ := hσ
  rcases Nat.lt_or_ge 3 (weight σ) with h | h
  swap
  · refine ⟨_, execDec_direct payload s (by rw [hsσ]; exact h), .inl ⟨_, errpat_direct _ _ h, ?_⟩⟩
    subst hσ
    exact ⟨⟨rfl, rfl, rfl, rfl, rfl, rfl, rfl⟩, rfl, rfl, rfl, rfl, rfl, rfl, rfl, rfl⟩
  have h' : 3 < weight (withSyndrome payload s).work.s := by rw [hsσ]; exact h
  have hM := withSearch_M payload s
  have hsj := withSearch_sj payload s
  have h2s := withSyndrome2_s2 payload s
  have h2w := withSyndrome2_weight2 payload s
  rw [hσ] at hM hsj h2s h2w
  rcases e : matchSet (candidates s.config.b σ) with _ | ⟨j, _ | ⟨k, rest⟩⟩ <;> rw [e] at hM
  · rcases Nat.lt_or_ge 3 (weight (vecMul σ s.config.b)) with h2 | h2
    swap
    · refine ⟨_, execDec_directLeft payload s h' hM (by rw [h2w]; exact h2),
        .inl ⟨_, errpat_directLeft _ _ h e h2, ?_⟩⟩
      subst hσ
      exact ⟨⟨rfl, rfl, rfl, rfl, rfl, rfl, rfl⟩, rfl, rfl, rfl, rfl, rfl, rfl, rfl, rfl⟩
    rcases f : firstLeft s.config.b (vecMul σ s.config.b) with _ | j
    · have hx := execDec_exhausted payload s h' hM (by rw [h2w]; exact h2) (by rw [h2s]; exact f)
      have he := errpat_exhausted s.config σ h e h2 f
      cases hc : s.config.compatFallback <;> rw [hc] at hx he
      · exact ⟨_, hx, .inr ⟨he, rfl, rfl⟩⟩
      · exact ⟨_, hx, .inl ⟨_, he, ⟨rfl, rfl, rfl, rfl, rfl, rfl, rfl⟩, rfl, rfl, rfl, rfl, rfl, rfl, rfl, rfl⟩⟩
    · refine ⟨_, execDec_searchLeft payload s h' hM (by rw [h2w]; exact h2) j (by rw [h2s]; exact f),
        .inl ⟨_, errpat_searchLeft _ _ h e h2 j f, ?_⟩⟩
      subst hσ
      exact ⟨⟨rfl, rfl, rfl, rfl, rfl, rfl, rfl⟩, rfl, rfl, rfl, rfl, rfl, rfl, rfl, rfl⟩
  · have hc : concat (unitVector j) (withSearch payload s).work.sj[j]
        = concat (unitVector j) (candidate s.config.b σ j) := by rw [hsj, getElem_candidates]
    refine ⟨_, execDec_one payload s h' j hM, .inl ⟨_, errpat_right _ _ h j [] e, ?_⟩⟩
    exact ⟨⟨hc, congrArg (vecXor (receivedOperand payload)) hc, rfl, rfl, rfl, rfl, rfl⟩,
      rfl, rfl, rfl, rfl, rfl, rfl, rfl, rfl⟩
  · have hc : concat (unitVector (lightest (withSearch payload s).work.sj j (k :: rest)))
          (withSearch payload s).work.sj[lightest (withSearch payload s).work.sj j (k :: rest)]
        = concat (unitVector (lightest (candidates s.config.b σ) j (k :: rest)))
          (candidate s.config.b σ (lightest (candidates s.config.b σ) j (k :: rest))) := by
      simp only [hsj, getElem_candidates]
    refine ⟨_, execDec_many payload s h' j k rest hM, .inl ⟨_, errpat_right _ _ h j (k :: rest) e, ?_⟩⟩
    exact ⟨⟨hc, congrArg (vecXor (receivedOperand payload)) hc, rfl, rfl, rfl, rfl, rfl⟩,
      rfl, rfl, rfl, rfl, rfl, rfl, rfl, rfl⟩

end Ends

/-- What every transition leaves alone: the constants, the pins and, until the response is given, the command in
flight. -/
theorem advance_keeps {s t : State} (h : advance s = .next t) :
    t.config = s.config ∧ t.pins = s.pins ∧
      ((s.phase = .respond ∧ s.rspValid = true ∧ s.pins.rspReady = true ∧ t = giveResponse s) ∨
        (t.busy = s.busy ∧ inFlight t.work = inFlight s.work)) := by
  by_cases hg : s.phase = .respond ∧ s.rspValid = true ∧ s.pins.rspReady = true
  · rw [advance_respond_give hg.1 hg.2.1 hg.2.2] at h
    cases h
    exact ⟨rfl, rfl, .inl ⟨hg.1, hg.2.1, hg.2.2, rfl⟩⟩
  · unfold advance at h
    split at h <;> (try split at h) <;> (try split at h) <;>
      first
        | (cases h; done)
        | (cases h; exact ⟨rfl, rfl, .inr ⟨rfl, rfl⟩⟩)
        | (exfalso; simp_all)

theorem advanceTimes_zero (s : State) : advanceTimes 0 s = .next s := rfl

/-- One transition, then the rest. -/
theorem advanceTimes_succ {s s' : State} (h : advance s = .next s') (n : Nat) :
    advanceTimes (n + 1) s = advanceTimes n s' := by
  rw [advanceTimes, h]

/-! ### The syndrome of a symmetric code -/

theorem syndrome_of_symmetric {b : Mat 12 12} (h : IsSymmetric b) (r : Vec 24) :
    syndrome b r = vecXor (vecMul (firstHalf r) b) (secondHalf r) := by
  rw [syndrome_eq, show transpose b = b from h]

/-- With `B · B = I`, multiplying by `B` twice changes nothing. -/
theorem vecMul_twice {b : Mat 12 12} (h : matMul b b = identity) (v : Vec 12) : vecMul (vecMul v b) b = v := by
  rw [← vecMul_matMul, h, vecMul_identity]

end Sys2Proof.Machine
end

