-- ==== Sys2Proof/Tests/Slice0.lean ====
section
/-! SUPPORT. Tests, with expected values from 95_test_vectors.md, and for every statement with hypotheses a theorem
`test_witness_<statement>` with concrete values that meet them all. -/

namespace Sys2Proof.Tests

open Sys2Proof.Machine

/-! ### Helpers -/

/-- `B_TOY` of 95_test_vectors.md section 8, to reach `MultipleMatches`. -/
def toyBlock : Mat 12 12 :=
  #v[0x03C#12, 0x03C#12, 0x03C#12, 0x01C#12, 0x000#12, 0x004#12,
     0xE00#12, 0xF00#12, 0xF00#12, 0xF40#12, 0x000#12, 0x000#12]

/-- `B_ASYM` of 95_test_vectors.md section 8: a single 1, at `B[0][1]`. -/
def asymBlock : Mat 12 12 :=
  #v[0x400#12, 0#12, 0#12, 0#12, 0#12, 0#12, 0#12, 0#12, 0#12, 0#12, 0#12, 0#12]

def toyConfig : Config := { b := toyBlock, compatFallback := false }

def asymConfig : Config := { b := asymBlock, compatFallback := false }

def compatConfig : Config := { b := structureBlockGK, compatFallback := true }

/-- An idle core with this command word offered. -/
def offered (c : Config) (w : CmdWord) : State :=
  State.idleWith c { rst := false, cmdValid := true, cmd := w, rspReady := false }

/-- An idle core with quiet pins. -/
def idle (c : Config) : State := State.idleWith c Pins.quiet

/-- The state after an outcome, where there is one. -/
def after (o : Host.Outcome State Fault Refusal) : Option State :=
  match o with
  | .next t => some t
  | .fault _ => none
  | .refused _ => none

/-- The response word after one step with this command word offered. -/
def responseTo (c : Config) (w : CmdWord) : Option RspWord := (after (step (offered c w))).map State.rsp

/-! ### Well-formedness and decoding -/

/-- R49: the lengths next to the required one, and the other operation's length (L2, L3, L4, L7, L8, L9). -/
theorem test_illFormed : wellFormed (.enc 11 0xABC) = false ∧ wellFormed (.enc 13 0xABC) = false ∧
    wellFormed (.enc 24 0xABCBF3) = false ∧ wellFormed (.dec 12 0xABC) = false ∧
    wellFormed (.dec 23 0xABCBF3) = false ∧ wellFormed (.dec 25 0xABCBF3) = false := by decide

theorem test_wellFormed : WellFormed (encOf 0xABC) ∧ WellFormed (decOf 0xABCBF3) := by decide

/-- `ENC`, bit by bit from R47: `OP` = 0, `LEN` = 01100, then 24 payload bits (section 9, field extraction). -/
theorem test_decode_enc : decode (0b001100000000000000101010111100#30) = encOf 0xABC := by decide

/-- `DEC`, bit by bit from R47: `OP` = 1, `LEN` = 11000, then 24 payload bits (section 9, field extraction). -/
theorem test_decode_dec : decode (0b111000101010111100101111110011#30) = decOf 0xABCBF3 := by decide

/-- One bit moved in each field changes that field alone. -/
theorem test_decode_fields : decode (0b001101000000000000101010111100#30) = .enc 13 0xABC ∧
    decode (0b101100000000000000101010111100#30) = .dec 12 0xABC ∧
    decode (0b001100100000000000101010111100#30) = .enc 12 0x800ABC := by decide

/-- The words of 95_test_vectors.md sections 3 and 9 (A1, A3, L5, L10). -/
theorem test_encode : encode (encOf 0) = 0x0C000000#30 ∧ encode (.enc 12 0xFFF001) = 0x0CFFF001#30 ∧
    encode (.enc 31 0xFFFFFF) = 0x1FFFFFFF#30 ∧ encode (.dec 31 0xFFFFFF) = 0x3FFFFFFF#30 := by decide

/-- A number of more than 30 bits is no command word (R47, R59). -/
theorem test_decodeTableWord : decodeTableWord 30 0x38ABCBF3 = some (decOf 0xABCBF3) ∧
    decodeTableWord 32 0x0C000ABC = some (encOf 0xABC) ∧ decodeTableWord 32 0x40000000 = none := by decide

/-- A word placed by `withFetchWord` is the first command after reset (P1, step 1). -/
theorem test_withFetchWord : (after (step (State.reset.withFetchWord 32 0x0C000ABC))).map State.rsp
    = some 0x0ABCBF3#27 := by decide +kernel

/-! ### The two commands -/

/-- Section 4, `ENC 0xABC` and `ENC 0x555`. -/
theorem test_enc : responseTo defaultConfig 0x0C000ABC = some 0x0ABCBF3 ∧
    responseTo defaultConfig 0x0C000555 = some 0x0555B43 := by decide +kernel

/-- `ENC` adds rows of `B` (section 8, `B_ASYM`), and ignores `PAYLOAD[23:12]` (A3). -/
theorem test_enc_rows : responseTo asymConfig 0x0C000800 = some 0x0800400 ∧
    responseTo asymConfig 0x0C000400 = some 0x0400000 ∧
    responseTo defaultConfig 0x0CFFF001 = some 0x0001FFE := by decide +kernel

/-- T1: of matches of equal weight the smallest column. T2: the first left match, not the lightest. -/
theorem test_dec_choice : responseTo toyConfig 0x38000F80 = some 0x0000010 ∧
    responseTo toyConfig 0x38000047 = some 0x0000044 := by decide +kernel

/-- V8 (`SearchLeft`), V11 (`UNCORRECTABLE`) and V11c (the same word with `COMPAT_FALLBACK` = 1). -/
theorem test_dec_exhausted : responseTo defaultConfig 0x38BACBD3 = some 0x0000ABC ∧
    responseTo defaultConfig 0x3829CFF1 = some 0x1000000 ∧
    responseTo compatConfig 0x3829CFF1 = some 0x000029C := by decide +kernel

/-- Section 8, `B_ASYM`: `Ht` adds columns of `B`; the second syndrome multiplies by `B` and not its transpose. -/
theorem test_orientation : syndrome asymBlock 0x400000 = 0x800#12 ∧ syndrome asymBlock 0x800000 = 0#12 ∧
    syndrome asymBlock 0x800400 = 0x400#12 ∧ vecMul 0x800#12 asymBlock = 0x400#12 ∧
    vecMul 0x400#12 asymBlock = 0#12 := by decide +kernel

/-- Section 2: a product, a transpose, a concatenation, a column, a weight. -/
theorem test_primitives :
    vecMul 0b11#2 (#v[0b101#3, 0b110#3]) = 0b011#3 ∧
    transpose (#v[0b101#3, 0b110#3]) = #v[0b11#2, 0b01#2, 0b10#2] ∧
    hconcat (#v[0b1#1, 0b0#1]) (#v[0b01#2, 0b11#2]) = #v[0b101#3, 0b011#3] ∧
    column 1 (#v[0b101#3, 0b110#3]) = 0b01#2 ∧ weight 0b110111000101#12 = 7 := by decide

/-- Section 2: the three size errors. -/
theorem test_sizeErrors :
    matMulChecked (#v[0b101#3]) (#v[0b101#3, 0b110#3]) = .error .dimensionMismatch ∧
    hconcatChecked (#v[0b1#1, 0b0#1]) (#v[0b1#1, 0b0#1, 0b1#1]) = .error .rowCountMismatch ∧
    vecXorChecked 0b110#3 0b1010#4 = .error .lengthMismatch := by decide

/-! ### The default matrix (41_code_constants.md R89): it meets (P1), (P2) and (P3) -/

theorem test_default_P1 : P1 structureBlockGK := by decide +kernel

theorem test_default_P2 : P2 structureBlockGK := by decide +kernel

theorem test_default_rows : ∀ i : Index, 7 ≤ weight (row i structureBlockGK) := by decide +kernel

theorem test_default_rowPairs :
    ∀ i j : Index, i ≠ j → 6 ≤ weight (vecXor (row i structureBlockGK) (row j structureBlockGK)) := by
  decide +kernel

theorem test_default_rowTriples : ∀ i j k : Index, i ≠ j → j ≠ k → i ≠ k →
    5 ≤ weight (vecXor (row i structureBlockGK) (vecXor (row j structureBlockGK) (row k structureBlockGK))) := by
  decide +kernel

theorem test_default_P3 : P3 structureBlockGK :=
  P3_of_rows test_default_P2 test_default_rows test_default_rowPairs test_default_rowTriples

/-- R92's duty: the static check, by evaluation (section 6), and a `B` that fails it (section 8, `B_ASYM`). -/
theorem test_staticCheck : staticCheck structureBlockGK = true ∧ staticCheck asymBlock = false := by decide +kernel

/-! ### Witnesses: commands and primitives -/

theorem test_witness_ProductOfTheConstantsIsZeroIffSymmetric : staticCheck structureBlockGK = true :=
  test_staticCheck.1

/-- The three clauses at the edges of their ranges (L2 to L4, L7 to L9, L11, L12). -/
theorem test_witness_EveryCommandWordIsPerformedOrRefused :
    0x0CFFFFFF#30 &&& 0x3F000000#30 = 0x0C000000#30 ∧ 0x38ABCBF3#30 &&& 0x3F000000#30 = 0x38000000#30 ∧
    0x0BFFFFFF#30 &&& 0x3F000000#30 ≠ 0x0C000000#30 ∧ 0x0BFFFFFF#30 &&& 0x3F000000#30 ≠ 0x38000000#30 ∧
    0x0D000000#30 &&& 0x3F000000#30 ≠ 0x0C000000#30 ∧ 0x0D000000#30 &&& 0x3F000000#30 ≠ 0x38000000#30 ∧
    0x18ABCBF3#30 &&& 0x3F000000#30 ≠ 0x0C000000#30 ∧ 0x18ABCBF3#30 &&& 0x3F000000#30 ≠ 0x38000000#30 ∧
    0x2C000ABC#30 &&& 0x3F000000#30 ≠ 0x0C000000#30 ∧ 0x2C000ABC#30 &&& 0x3F000000#30 ≠ 0x38000000#30 ∧
    0x37FFFFFF#30 &&& 0x3F000000#30 ≠ 0x0C000000#30 ∧ 0x37FFFFFF#30 &&& 0x3F000000#30 ≠ 0x38000000#30 ∧
    0x39000000#30 &&& 0x3F000000#30 ≠ 0x0C000000#30 ∧ 0x39000000#30 &&& 0x3F000000#30 ≠ 0x38000000#30 := by decide

theorem test_witness_MatrixProduct : (3 : Nat) ≠ 2 := by decide

theorem test_witness_ConcatenationAndXor : (2 : Nat) ≠ 3 := by decide

theorem test_witness_AlgebraCornerCases : row 0 (#v[0b000#3, 0b110#3]) = zeroVec 3 ∧
    IsSymmetric (#v[0b01#2, 0b10#2]) ∧ ∀ i, elem 0xFFF#12 i = true := by decide

theorem test_witness_ConstantMatricesEntryByEntry : IsSymmetric structureBlockGK := test_default_P1

theorem test_witness_ProductsHalfByHalf : IsSymmetric structureBlockGK := test_default_P1

theorem test_witness_EncIgnoresTheUpperPayloadBits :
    (0xFFF001#24).extractLsb' 0 12 = (0x000001#24).extractLsb' 0 12 := by decide

theorem test_witness_CodewordsAreTheWordsOfSyndromeZero :
    IsSymmetric structureBlockGK ∧ vecMul 0xABCBF3#24 (parityCheckT structureBlockGK) = zeroVec 12 := by
  decide +kernel

theorem test_witness_WrongLengthIsAnsweredInvalidLength :
    11#5 ≠ 12#5 ∧ 13#5 ≠ 12#5 ∧ 24#5 ≠ 12#5 ∧ 12#5 ≠ 24#5 ∧ 23#5 ≠ 24#5 ∧ 25#5 ≠ 24#5 := by decide

/-- Both commands answer a next state, well formed and not. -/
theorem test_witness_CommandsWriteOnlyTheirWorkingValues :
    ∀ i ∈ [encOf 0xABC, .enc 11 0xABC, decOf 0xABC3B2, .dec 23 0xABC3B2],
      (after (exec i (idle defaultConfig))).isSome = true := by decide +kernel

theorem test_witness_OutcomesACommandCanReport :
    (after (exec (decOf 0x29CFF1) (idle defaultConfig))).map (fun t => t.work.status) = some .uncorrectable ∧
    (after (exec (.enc 11 0xABC) (idle defaultConfig))).map (fun t => t.work.status) = some .invalidLength := by
  decide +kernel

theorem test_witness_NoDataWithAnError :
    (after (exec (decOf 0x29CFF1) (idle defaultConfig))).map (fun t => decide (t.work.status ≠ .ok)) = some true := by
  decide +kernel

/-- Two ready instances that differ in what their working values hold. -/
theorem test_witness_SameWordSameResponse :
    let s := offered defaultConfig 0x38ABC3B2
    let s' := { s with work := { s.work with M := [3], j := 5, error := 0x123456 } }
    s ≠ s' ∧ s.config = s'.config ∧ s.cmdReady = true ∧ s'.cmdReady = true ∧ s.pins.cmdValid = true ∧
      s'.pins.cmdValid = true ∧ s.pins.cmd = s'.pins.cmd := by decide

/-! ### Witnesses: the branches of `DEC` -/

/-- V3: weight 3 is `Direct`. -/
theorem test_witness_DecDirect :
    weight (vecMul (receivedOperand 0xABC3B2) (parityCheckT (idle defaultConfig).config.b)) = 3 := by
  decide +kernel

/-- A9: weight 4 is not. -/
theorem test_witness_DecSearchRight :
    weight (vecMul (receivedOperand 0x00000F) (parityCheckT (idle defaultConfig).config.b)) = 4 := by
  decide +kernel

/-- V4: one match, column 0. V5: one match of weight 2, column 11. -/
theorem test_witness_DecExactlyOneMatch :
    let b := (idle defaultConfig).config.b
    (3 < weight (vecMul (receivedOperand 0x2BCBF3) (parityCheckT b)) ∧
      ∀ k : Index, weight (vecXor (vecMul (receivedOperand 0x2BCBF3) (parityCheckT b)) (column k b)) ≤ 2 ↔ k = 0) ∧
    (3 < weight (vecMul (receivedOperand 0xABD9FB) (parityCheckT b)) ∧
      ∀ k : Index, weight (vecXor (vecMul (receivedOperand 0xABD9FB) (parityCheckT b)) (column k b)) ≤ 2 ↔ k = 11) := by
  decide +kernel

/-- T1: four matches, of which columns 7 and 8 are the lightest. -/
theorem test_witness_DecMultipleMatches :
    let b := (idle toyConfig).config.b
    let syn := vecMul (receivedOperand 0x000F80) (parityCheckT b)
    let wt := fun l : Index => weight (vecXor syn (column l b))
    3 < weight syn ∧ wt 7 ≤ 2 ∧ wt 8 ≤ 2 ∧ (8 : Index) ≠ 7 ∧
      ∀ l : Index, wt l ≤ 2 → wt 7 < wt l ∨ (wt 7 = wt l ∧ 7 ≤ l) := by decide +kernel

/-- V7: second syndrome of weight 3. -/
theorem test_witness_DecDirectLeft :
    let b := (idle defaultConfig).config.b
    let syn := vecMul (receivedOperand 0xEFEBF3) (parityCheckT b)
    3 < weight syn ∧ (∀ k : Index, 2 < weight (vecXor syn (column k b))) ∧ weight (vecMul syn b) = 3 := by
  decide +kernel

/-- T2: the first left match, column 7, of weight 2, before a lighter one at column 9. -/
theorem test_witness_DecSearchLeft :
    let b := (idle toyConfig).config.b
    let syn := vecMul (receivedOperand 0x000047) (parityCheckT b)
    let syn2 := vecMul syn b
    3 < weight syn ∧ (∀ k : Index, 2 < weight (vecXor syn (column k b))) ∧ 3 < weight syn2 ∧
      weight (vecXor syn2 (column 7 b)) = 2 ∧ weight (vecXor syn2 (column 9 b)) = 1 ∧
      ∀ k : Index, k < 7 → 2 < weight (vecXor syn2 (column k b)) := by decide +kernel

/-- V8b: the search stops at column 0. -/
theorem test_witness_DecSearchLeft_first :
    let b := (idle defaultConfig).config.b
    let syn := vecMul (receivedOperand 0xBAC3F3) (parityCheckT b)
    let syn2 := vecMul syn b
    3 < weight syn ∧ (∀ k : Index, 2 < weight (vecXor syn (column k b))) ∧ 3 < weight syn2 ∧
      weight (vecXor syn2 (column 0 b)) ≤ 2 ∧ ∀ k : Index, k < 0 → 2 < weight (vecXor syn2 (column k b)) := by
  decide +kernel

/-- V11: nothing qualifies; with the second setting, V11c, the hypotheses of the fallback. -/
theorem test_witness_exhausted : ∀ c ∈ [defaultConfig, compatConfig],
    let b := (idle c).config.b
    let syn := vecMul (receivedOperand 0x29CFF1) (parityCheckT b)
    let syn2 := vecMul syn b
    3 < weight syn ∧ (∀ k : Index, 2 < weight (vecXor syn (column k b))) ∧ 3 < weight syn2 ∧
      ∀ k : Index, 2 < weight (vecXor syn2 (column k b)) := by decide +kernel

theorem test_witness_DecUncorrectable : (idle defaultConfig).config.compatFallback = false ∧
    errpat defaultConfig (syndrome structureBlockGK (receivedOperand 0x29CFF1)) = none := by decide +kernel

/-- The setting, and a word that the other setting answers too (V8). -/
theorem test_witness_CompatibilityFallback : (idle compatConfig).config.compatFallback = true ∧
    (after (exec (decOf 0xBACBD3)
      { idle compatConfig with config := { compatConfig with compatFallback := false } })).map
        (fun t => decide (t.work.status ≠ .uncorrectable)) = some true := by decide +kernel

/-- V7: status `OK`, with an error vector of weight 3. -/
theorem test_witness_DecOperandAndOkPayload :
    (after (exec (decOf 0xEFEBF3) (idle defaultConfig))).map (fun t => (t.work.status, weight t.work.error))
      = some (.ok, 3) := by decide +kernel

theorem test_witness_ErrorVectorsHaveWeightAtMostThree :
    (after (exec (decOf 0x29CFF1) (idle compatConfig))).map (fun t => (t.work.status, weight t.work.error))
      = some (.ok, 0) := by decide +kernel

/-- V3 for `Direct`, V4 for the right search, V8 for the rest, V11c for the fallback. -/
theorem test_witness_CorrectedWordsHaveSyndromeZero :
    weight (vecMul (receivedOperand 0xABC3B2) (parityCheckT structureBlockGK)) ≤ 3 ∧
    weight (vecXor (vecMul (receivedOperand 0x2BCBF3) (parityCheckT structureBlockGK))
      (column 0 structureBlockGK)) ≤ 2 ∧
    P1 structureBlockGK ∧ P2 structureBlockGK ∧
    errpat defaultConfig (vecMul (receivedOperand 0xBACBD3) (parityCheckT structureBlockGK)) ≠ none ∧
    errpat defaultConfig (vecMul (receivedOperand 0x29CFF1) (parityCheckT structureBlockGK)) = none ∧
    (after (exec (decOf 0x29CFF1) (idle compatConfig))).map (fun t => t.work.status) = some .ok := by decide +kernel

/-- V6 and its channel error alone: two words of one syndrome. -/
theorem test_witness_ErrorVectorIsAFunctionOfTheSyndrome :
    (idle defaultConfig).config = (offered defaultConfig 5).config ∧
    syndrome structureBlockGK (receivedOperand 0x8B8BF3) = syndrome structureBlockGK (receivedOperand 0x204000) ∧
    (after (exec (decOf 0x8B8BF3) (idle defaultConfig))).map (fun t => t.work.status) = some .ok := by
  decide +kernel

/-! ### Witnesses: the code's properties -/

theorem test_witness_RoundTrip : P1 (idle defaultConfig).config.b ∧
    (idle compatConfig).config.b = (idle defaultConfig).config.b := by decide +kernel

/-- V8's error, of weight 3 over both halves. -/
theorem test_witness_UpToThreeErrorsAreCorrected :
    P1 (idle defaultConfig).config.b ∧ P2 (idle defaultConfig).config.b ∧ P3 (idle defaultConfig).config.b ∧
    (idle compatConfig).config.b = (idle defaultConfig).config.b ∧ weight 0x110020#24 = 3 :=
  ⟨test_default_P1, test_default_P2, test_default_P3, rfl, by decide +kernel⟩

/-- V11's error, of weight 4 over both halves. -/
theorem test_witness_FourErrorsAreDetected :
    P1 (idle defaultConfig).config.b ∧ P2 (idle defaultConfig).config.b ∧ P3 (idle defaultConfig).config.b ∧
    (offered defaultConfig 5).config.b = (idle defaultConfig).config.b ∧
    (offered defaultConfig 5).config.compatFallback = false ∧ weight 0x820402#24 = 4 :=
  ⟨test_default_P1, test_default_P2, test_default_P3, rfl, rfl, by decide⟩

theorem test_witness_MinimumDistanceIsAPropertyOfB : P3 structureBlockGK ∧ (0x001#12 : Vec 12) ≠ 0x002#12 :=
  ⟨test_default_P3, by decide⟩

/-- The conclusion makes the two vectors equal, so a witness has to be one vector, here of the largest weight. -/
theorem test_witness_LowWeightVectorsAreToldApartBySyndrome :
    P1 structureBlockGK ∧ P3 structureBlockGK ∧ weight 0x110020#24 ≤ 3 ∧ weight 0x110020#24 ≤ 4 ∧
    syndrome structureBlockGK 0x110020 = syndrome structureBlockGK 0x110020 :=
  ⟨test_default_P1, test_default_P3, by decide, by decide, rfl⟩

/-- V5's syndrome matches on the right at column 11, V8's on the left at column 6. -/
theorem test_witness_SearchesHaveAtMostOneMatch :
    P1 structureBlockGK ∧ P3 structureBlockGK ∧ P2 structureBlockGK ∧
    weight (candidate structureBlockGK 0xDF6 11) ≤ 2 ∧
    weight (candidate structureBlockGK (vecMul 0xCD0#12 structureBlockGK) 6) ≤ 2 :=
  ⟨test_default_P1, test_default_P3, test_default_P2, by decide +kernel, by decide +kernel⟩

/-! ### Witnesses: the machine -/

theorem test_witness_StepRunsTheDecodedCommand :
    (offered defaultConfig 0x38ABCBF3).cmdReady = true ∧ (offered defaultConfig 0x38ABCBF3).pins.cmdValid = true ∧
    encode (decOf 0xABCBF3) = (offered defaultConfig 0x38ABCBF3).pins.cmd := by decide

theorem test_witness_AcceptLatchesTheFields :
    (offered defaultConfig 0x3FFFFFFF).cmdReady = true ∧ (offered defaultConfig 0x3FFFFFFF).pins.cmdValid = true := by
  decide

/-- A core that offers the response to an ill-formed command, its host ready or not. -/
def offering (rspReady : Bool) : State :=
  let s := raiseKind .invalidLength (accept .enc 11 0xABC (idle defaultConfig))
  { s with pins := { s.pins with rspReady := rspReady } }

theorem test_witness_ResponseIsHeldUntilTaken : ∀ r : Bool,
    (offering r).busy = true ∧ (offering r).phase = .respond ∧ (offering r).rspValid = true ∧
    (offering r).pins.rst = false ∧ (offering r).pins.rspReady = r := by decide

theorem test_witness_IdleCoreWaits : State.reset.cmdReady = true ∧ State.reset.pins.cmdValid = false := by decide

/-- A reset that meets a response being taken. -/
theorem test_witness_ResetDropsTheCommandInFlight :
    let s := drive { (offering true).pins with rst := true } (offering true)
    s.pins.rst = true ∧ s.busy = true ∧ s.rspValid = true := by decide

theorem test_coherent_reset : Coherent State.reset := ⟨rfl, rfl, rfl⟩

/-- A command that has been accepted and not yet looked at. -/
theorem test_coherent_checkLength : Coherent (latch (decOf 0x29CFF1) (idle defaultConfig)) := ⟨rfl, rfl⟩

theorem test_coherent_respond (r : Bool) : Coherent (offering r) := ⟨rfl, rfl, rfl⟩

theorem test_coherent_exhausted_of (payload : Payload) (s : State) (hv : s.rspValid = false) (σ σ2 : Vec 12)
    (hσ : syndrome s.config.b (receivedOperand payload) = σ) (hσ2 : vecMul σ s.config.b = σ2)
    (h : 3 < weight σ) (hM : ∀ j : Index, 2 < weight (candidate s.config.b σ j))
    (h2 : 3 < weight σ2) (h3 : ∀ j : Index, 2 < weight (candidate s.config.b σ2 j)) :
    Coherent (goto .exhausted (searchLeftNone (withSyndrome2 payload s))) := by
  subst hσ hσ2
  have hn : (withSearch payload s).work.M = [] := by
    rw [withSearch_M, matchSet_eq_nil_iff]
    intro j
    rw [getElem_candidates]
    exact hM j
  exact ⟨⟨⟨⟨⟨rfl, hv, rfl, rfl, rfl⟩, rfl⟩, h, rfl, rfl⟩, hn, rfl, rfl⟩, h2, h3⟩

/-- V11 after an exhausted search. -/
theorem test_coherent_exhausted :
    Coherent (goto .exhausted (searchLeftNone (withSyndrome2 0x29CFF1 (idle defaultConfig)))) :=
  test_coherent_exhausted_of _ _ rfl 0x8A8 0x548 (by decide +kernel) (by decide +kernel) (by decide +kernel)
    (by decide +kernel) (by decide +kernel) (by decide +kernel)

theorem test_witness_StepKeepsTheInvariant : Coherent State.reset ∧ step State.reset = .next State.reset :=
  ⟨test_coherent_reset, rfl⟩

/-- A transition in mid-command: from the accepted word to the assembled one. -/
theorem test_witness_CycleKeepsTheInvariant :
    let s := latch (decOf 0x29CFF1) (idle defaultConfig)
    Coherent s ∧ cycle s = .next (goto .computeSyndrome (assembleReceived s)) :=
  ⟨test_coherent_checkLength, rfl⟩

theorem test_witness_MachineNeverStops :
    Coherent (goto .exhausted (searchLeftNone (withSyndrome2 0x29CFF1 (idle defaultConfig)))) ∧
    (drive { Pins.quiet with rst := true } (goto .exactlyOneMatch State.reset)).pins.rst = true :=
  ⟨test_coherent_exhausted, rfl⟩

/-- A decoder in this phase, with these working values, out of reset, its host ready. -/
def working (c : Config) (ph : Phase) (w : Work) : State :=
  { idle c with busy := true, phase := ph, work := w, pins := { Pins.quiet with rspReady := true } }

/-- Every phase with a command in flight, and the further conditions of the rows that have one (V4, T1, V8b, V11). -/
theorem test_witness_TransitionTableRowByRow :
    ((offered defaultConfig 0x0C000ABC).busy = false ∧ (offered defaultConfig 0x0C000ABC).pins.cmdValid = true) ∧
    (∀ ph ∈ [Phase.checkLength, .encode, .computeSyndrome, .direct, .searchRight, .noMatch, .computeSyndrome2,
        .directLeft, .exhausted, .uncorrectable, .correction],
      (working defaultConfig ph Work.initial).phase = ph ∧ (working defaultConfig ph Work.initial).busy = true ∧
      (working defaultConfig ph Work.initial).pins.rst = false) ∧
    (∀ s ∈ [latch (.enc 11 0xABC) (idle defaultConfig), latch (.dec 12 0xABC) (idle defaultConfig)],
      s.phase = .checkLength ∧ s.work.len ≠ requiredLen s.work.op) ∧
    ((latch (encOf 0xABC) (idle defaultConfig)).work.len = 12#5 ∧
      (latch (decOf 0xABC) (idle defaultConfig)).work.len = 24#5) ∧
    (working toyConfig .exactlyOneMatch { Work.initial with M := [0] }).work.M = [0] ∧
    2 ≤ (working toyConfig .multipleMatches { Work.initial with M := [7, 8] }).work.M.length ∧
    (compatConfig.compatFallback = true ∧ defaultConfig.compatFallback = false) ∧
    (offering true).pins.rspReady = true := by decide

theorem test_witness_TransitionTableRowByRow_searchLeft :
    weight (vecXor (working defaultConfig .searchLeft { Work.initial with s2 := 0xCD5 }).work.s2
      (column 0 structureBlockGK)) ≤ 2 ∧
    ∀ k : Index, 2 < weight (vecXor (working defaultConfig .searchLeft { Work.initial with s2 := 0x548 }).work.s2
      (column k structureBlockGK)) := by decide +kernel

theorem test_witness_ConstantsNeverChange :
    step (offering true) = .next (giveResponse (offering true)) ∧
    cycle (offered defaultConfig 0x0C000ABC) = .next (latch (encOf 0xABC) (offered defaultConfig 0x0C000ABC)) :=
  ⟨rfl, rfl⟩

theorem test_witness_IdleStateIsOne :
    Coherent (offering true) ∧ step (offering true) = .next (giveResponse (offering true)) ∧
    (giveResponse (offering true)).busy = false := ⟨test_coherent_respond true, rfl, rfl⟩

/-- A schedule that offers a command, waits, and takes the response (P4, step 1); both accounts of the machine. -/
def schedule : List Pins :=
  [{ rst := false, cmdValid := true, cmd := 0x0B000ABC, rspReady := false }, Pins.quiet,
   { Pins.quiet with rspReady := true }]

theorem test_witness_PortRunAnswersInOrder : (∀ p ∈ schedule, p.rst = false) ∧
    (portRun step schedule (idle defaultConfig)).accepted = [0x0B000ABC] ∧
    (portRun step schedule (idle defaultConfig)).given = [0x2000000] ∧
    (portRun cycle schedule (idle defaultConfig)).given = [0x2000000] := by decide +kernel

/-- A reset loses the response. -/
theorem test_witness_PortRunWithResetsOnlyLosesResponses :
    (portRun step [{ rst := false, cmdValid := true, cmd := 0x0B000ABC, rspReady := true },
      { Pins.quiet with rst := true }] (idle defaultConfig)).given = [] := by decide +kernel

end Sys2Proof.Tests
end

section
/-! PROOFS. The frames of the two commands (R15) and the constants and pins under both accounts (R11). -/

namespace Sys2Proof.Machine

/-! ### What each command leaves unchanged -/

/-- The frame of `ENC`, whatever its declared length (R15). -/
theorem execEnc_frame {len : BitVec 5} {payload : Payload} {s t : State} (h : execEnc len payload s = .next t) :
    t.config = s.config ∧ t.pins = s.pins ∧
      t.work = { s.work with op := .enc, len := len, payload := payload, data := t.work.data,
                             codeword := t.work.codeword, status := t.work.status, out := t.work.out } := by
  by_cases hl : len = 12#5
  · subst hl
    rw [execEnc_wellFormed] at h
    cases h
    simp
  · rw [execEnc_wrongLength _ _ _ hl] at h
    cases h
    simp

/-- The frame of `DEC`, whatever its declared length and whichever branch it takes (R15). -/
theorem execDec_frame {len : BitVec 5} {payload : Payload} {s t : State} (h : execDec len payload s = .next t) :
    t.config = s.config ∧ t.pins = s.pins ∧ t.work.op = .dec ∧ t.work.len = len ∧ t.work.payload = payload ∧
      t.work.data = s.work.data ∧ t.work.codeword = s.work.codeword := by
  by_cases hl : len = 24#5
  · subst hl
    obtain ⟨t', ht', hend⟩ := execDec_cases payload s
    cases ht'.symm.trans h
    rcases hend with ⟨_, _, _, hconfig, hpins, hop, hlen, hpayload, _, hdata, hcodeword⟩ | ⟨_, _, rfl⟩
    · exact ⟨hconfig, hpins, hop, hlen, hpayload, hdata, hcodeword⟩
    · simp [withSyndrome2, withSearch, withSyndrome]
  · rw [execDec_wrongLength _ _ _ hl] at h
    cases h
    simp

/-! ### The constants and the pins -/

/-- No command changes the constants or the pins. -/
theorem exec_config_pins {i : Instr} {s t : State} (h : exec i s = .next t) :
    t.config = s.config ∧ t.pins = s.pins := by
  cases i with
  | enc len payload =>
    obtain ⟨hconfig, hpins, _⟩ := execEnc_frame h
    exact ⟨hconfig, hpins⟩
  | dec len payload =>
    obtain ⟨hconfig, hpins, _⟩ := execDec_frame h
    exact ⟨hconfig, hpins⟩

/-- No transition of R117 changes the constants or the pins. -/
theorem advance_config_pins {s t : State} (h : advance s = .next t) : t.config = s.config ∧ t.pins = s.pins := by
  obtain ⟨hconfig, hpins, _⟩ := advance_keeps h
  exact ⟨hconfig, hpins⟩

@[simp] theorem latch_config (i : Instr) (s : State) : (latch i s).config = s.config := by cases i <;> rfl

@[simp] theorem latch_pins (i : Instr) (s : State) : (latch i s).pins = s.pins := by cases i <;> rfl

/-- No step of the atomic account changes the constants or the pins. -/
theorem step_config_pins {s t : State} (h : step s = .next t) : t.config = s.config ∧ t.pins = s.pins := by
  rcases step_cases s with ⟨_, he⟩ | ⟨_, _, he⟩ | ⟨_, _, _, he⟩ | ⟨_, _, _, he⟩ <;> rw [he] at h
  case inl => cases h; simp
  case inr.inl => exact advance_config_pins h
  case inr.inr.inl => exact exec_config_pins h
  case inr.inr.inr => cases h; simp

/-- No step of the fine account changes the constants or the pins. -/
theorem cycle_config_pins {s t : State} (h : cycle s = .next t) : t.config = s.config ∧ t.pins = s.pins := by
  rcases cycle_cases s with ⟨_, he⟩ | ⟨_, _, he⟩ | ⟨_, _, _, he⟩ | ⟨_, _, _, he⟩ <;> rw [he] at h
  case inl => cases h; simp
  case inr.inl => exact advance_config_pins h
  case inr.inr.inl => cases h; simp
  case inr.inr.inr => cases h; simp

/-! ### The obligations -/

/-- Settles O22, by the frame of each command. -/
theorem commandsWriteOnlyTheirWorkingValues : Obligations.CommandsWriteOnlyTheirWorkingValues :=
  ⟨fun _ _ _ _ h => execEnc_frame h, fun _ _ _ _ h => execDec_frame h⟩

/-- Settles O57, by the case lemma of each account. -/
theorem constantsNeverChange : Obligations.ConstantsNeverChange :=
  ⟨fun _ _ h => h.elim step_config_pins cycle_config_pins, fun s p => drive_config p s, fun _ => ⟨rfl, rfl⟩⟩

end Sys2Proof.Machine
end

section
/-! PROOFS. The bits of vectors, halves and response words (R8, R50 to R55): what the pins carry is what the working
values hold. -/

namespace Sys2Proof.Machine

/-! ### Elements and halves as bus bits -/

/-- Element i of a vector is its bus bit n-1-i (R8). -/
theorem elem_eq_getLsbD {n : Nat} (v : Vec n) (i : Fin n) : elem v i = v.getLsbD (n - 1 - i) := by
  simp [elem_eq_getMsbD, BitVec.getMsbD_eq_getLsbD]

/-- The first half lies on the upper twelve bus bits (R51). -/
theorem firstHalf_eq_extractLsb' (c : Vec 24) : firstHalf c = c.extractLsb' 12 12 :=
  vec_ext fun i => by
    rw [elem_firstHalf, elem_eq_getLsbD, elem_eq_getLsbD, BitVec.getLsbD_extractLsb', Fin.val_castAdd,
      show 12 + (12 - 1 - i.val) = 24 - 1 - i.val by omega]
    simp [show 12 - 1 - i.val < 12 by omega]

/-- The second half lies on the lower twelve bus bits (R51). -/
theorem secondHalf_eq_extractLsb' (c : Vec 24) : secondHalf c = c.extractLsb' 0 12 :=
  vec_ext fun i => by
    rw [elem_secondHalf, elem_eq_getLsbD, elem_eq_getLsbD, BitVec.getLsbD_extractLsb', Fin.val_natAdd,
      show 0 + (12 - 1 - i.val) = 24 - 1 - (12 + i.val) by omega]
    simp [show 12 - 1 - i.val < 12 by omega]

/-- `data[i] = payload[11-i]` (R50). -/
theorem elem_dataOperand (payload : Payload) (i : Index) :
    elem (dataOperand payload) i = payload.getLsbD (11 - i) := by
  rw [elem_eq_getLsbD, dataOperand, vecOf, BitVec.getLsbD_extractLsb', Nat.zero_add]
  simp [show 12 - 1 - i.val < 12 by omega]

/-- The upper half of the payload of an `OK` response of `DEC` is zero (R55). -/
@[simp] theorem firstHalf_decPayload (c : Vec 24) : firstHalf (decPayload c) = 0#12 := by
  rw [firstHalf_eq_extractLsb', decPayload, BitVec.extractLsb'_setWidth_of_le (by decide)]
  ext i
  simp

/-- The lower half of the payload of an `OK` response of `DEC` is the decoded data (R55). -/
@[simp] theorem secondHalf_decPayload (c : Vec 24) : secondHalf (decPayload c) = firstHalf c := by
  rw [secondHalf_eq_extractLsb', decPayload, BitVec.extractLsb'_setWidth_of_le (by decide)]
  exact BitVec.extractLsb'_eq_self

/-! ### The response word -/

/-- The bits of `rsp` under its status are the bits of `out` (R52). -/
theorem rsp_extractLsb'_of_le (t : State) {start len : Nat} (h : start + len ≤ 24) :
    t.rsp.extractLsb' start len = t.work.out.extractLsb' start len :=
  BitVec.extractLsb'_append_eq_of_add_le h

theorem rsp_status (t : State) : t.rsp.extractLsb' 24 3 = statusCode t.work.status := status_packResponse _ _

theorem rsp_out (t : State) : t.rsp.extractLsb' 0 24 = t.work.out := payload_packResponse _ _

theorem rsp_firstHalf (t : State) : t.rsp.extractLsb' 12 12 = firstHalf t.work.out :=
  (rsp_extractLsb'_of_le t (Nat.le_refl 24)).trans (firstHalf_eq_extractLsb' _).symm

theorem rsp_secondHalf (t : State) : t.rsp.extractLsb' 0 12 = secondHalf t.work.out :=
  (rsp_extractLsb'_of_le t (by decide)).trans (secondHalf_eq_extractLsb' _).symm

/-- `rsp[23-i]` is element i of the payload (R54). -/
theorem rsp_getLsbD (t : State) (i : Fin 24) : t.rsp.getLsbD (23 - i) = elem t.work.out i := by
  rw [State.rsp, getLsbD_packResponse, if_pos (by omega), elem_eq_getLsbD]

/-- `rsp[11-i]` is element i of the payload's lower half (R55). -/
theorem rsp_getLsbD_secondHalf (t : State) (i : Index) :
    t.rsp.getLsbD (11 - i) = elem (secondHalf t.work.out) i := by
  rw [elem_secondHalf, ← rsp_getLsbD, Fin.val_natAdd, Nat.sub_add_eq]

end Sys2Proof.Machine
end

section
/-! PROOFS. The two commands end to end (R46, R50 to R58): every command completes with its answer offered and its
fields latched, so what a response can say is what `answer` can be. -/

namespace Sys2Proof

/-! ### Command words and the two patterns of R57 -/

theorem encode_decode (w : CmdWord) : encode (decode w) = w := by
  rcases fieldOp_cases w with h | h
  · rw [decode_enc w h]
    exact packCommand_fields w .enc h.symm
  · rw [decode_dec w h]
    exact packCommand_fields w .dec h.symm

/-- A word decodes to a well-formed command exactly when it matches its operation's pattern (R57, R58). -/
theorem wellFormed_decode_iff (w : CmdWord) :
    WellFormed (decode w) ↔ w &&& 0x3F000000#30 = Laws.TablePattern.pattern (decode w) := by
  have key : ∀ i, Laws.TablePattern.Statement i
    | .enc len payload => Laws.TablePattern.enc len payload
    | .dec len payload => Laws.TablePattern.dec len payload
  have h := key (decode w)
  rwa [Laws.TablePattern.Statement, encode_decode] at h

/-- A word that matches neither pattern is ill formed (R57). -/
theorem not_wellFormed_decode {w : CmdWord} (henc : w &&& 0x3F000000#30 ≠ 0x0C000000#30)
    (hdec : w &&& 0x3F000000#30 ≠ 0x38000000#30) : ¬ WellFormed (decode w) := by
  rw [wellFormed_decode_iff]
  cases decode w with
  | enc len payload => exact henc
  | dec len payload => exact hdec

/-- `cmd[29:24]` = 001100 is a well-formed `ENC` (R57). -/
theorem decode_of_encPattern {w : CmdWord} (h : w &&& 0x3F000000#30 = 0x0C000000#30) :
    decode w = .enc 12#5 (fieldPayload w) := by
  obtain ⟨hop, hlen⟩ := (fieldMask_eq_iff w .enc 12#5).mp h
  rw [decode_enc w hop, hlen]

/-- `cmd[29:24]` = 111000 is a well-formed `DEC` (R57). -/
theorem decode_of_decPattern {w : CmdWord} (h : w &&& 0x3F000000#30 = 0x38000000#30) :
    decode w = .dec 24#5 (fieldPayload w) := by
  obtain ⟨hop, hlen⟩ := (fieldMask_eq_iff w .dec 24#5).mp h
  rw [decode_dec w hop, hlen]

/-- The operand of `ENC` is `cmd[11:0]` (R50). -/
theorem dataOperand_fieldPayload (w : CmdWord) :
    Machine.dataOperand (fieldPayload w) = Machine.vecOf (w.extractLsb' 0 12) :=
  BitVec.extractLsb'_extractLsb'_of_le (by decide)

theorem wellFormed_enc_iff {len : BitVec 5} {payload : Payload} : WellFormed (.enc len payload) ↔ len = 12#5 :=
  beq_iff_eq

theorem wellFormed_dec_iff {len : BitVec 5} {payload : Payload} : WellFormed (.dec len payload) ↔ len = 24#5 :=
  beq_iff_eq

namespace Machine

/-! ### Every command completes with its answer -/

/-- The error vector is missing only without the fallback (R112, R113). -/
theorem compatFallback_of_errpat_eq_none {c : Config} {s : Vec 12} (h : errpat c s = none) :
    c.compatFallback = false := by
  rcases errpat_cases c s with ⟨_, e⟩ | ⟨_, _, _, e⟩ | ⟨_, _, _, e⟩ | ⟨_, _, _, _, _, e⟩ | ⟨_, _, _, _, e⟩ <;>
    rw [e] at h
  case inr.inr.inr.inr => simpa using h
  all_goals cases h

/-- A command of the wrong length is answered with `INVALID_LENGTH` (R58). -/
theorem answer_of_not_wellFormed (c : Config) {i : Instr} (h : ¬ WellFormed i) :
    answer c i = (.invalidLength, 0) := by
  cases i with
  | enc len payload => exact if_neg (mt wellFormed_enc_iff.mpr h)
  | dec len payload => exact if_neg (mt wellFormed_dec_iff.mpr h)

section

variable {c : Config} {payload : Payload}

theorem answer_dec_of_errpat_some {e : Vec 24} (h : errpat c (syndrome c.b (receivedOperand payload)) = some e) :
    answer c (.dec 24#5 payload) = (.ok, decPayload (vecXor (receivedOperand payload) e)) := by
  simp [answer, decodeData, h, decPayload]

theorem answer_dec_of_errpat_none (h : errpat c (syndrome c.b (receivedOperand payload)) = none) :
    answer c (.dec 24#5 payload) = (.uncorrectable, 0) := by
  simp [answer, decodeData, h]

end

/-- What an answer can be (R53, R166): `INVALID_LENGTH` answers exactly the ill-formed commands, and
`UNCORRECTABLE` only a well-formed `DEC` without the fallback. -/
theorem answer_cases (c : Config) (i : Instr) :
    (WellFormed i ∧ (answer c i).1 = .ok) ∨
    (WellFormed i ∧ answer c i = (.uncorrectable, 0) ∧ c.compatFallback = false ∧ ∃ payload, i = .dec 24#5 payload) ∨
    (¬ WellFormed i ∧ answer c i = (.invalidLength, 0)) := by
  by_cases hw : WellFormed i
  · cases i with
    | enc len payload =>
      obtain rfl := wellFormed_enc_iff.mp hw
      exact .inl ⟨hw, rfl⟩
    | dec len payload =>
      obtain rfl := wellFormed_dec_iff.mp hw
      rcases he : errpat c (syndrome c.b (receivedOperand payload)) with _ | e
      · exact .inr (.inl ⟨hw, answer_dec_of_errpat_none he, compatFallback_of_errpat_eq_none he, payload, rfl⟩)
      · exact .inl ⟨hw, congrArg Prod.fst (answer_dec_of_errpat_some he)⟩
  · exact .inr (.inr ⟨hw, answer_of_not_wellFormed c hw⟩)

/-- Every command completes in every state, with its fields latched and its answer offered (R46, R47, R118). -/
theorem exec_answers (i : Instr) (s : State) : ∃ t, exec i s = .next t ∧ Offering t ∧ inFlight t.work = i ∧
    (t.work.status, t.work.out) = answer s.config i := by
  cases i with
  | enc len payload =>
    by_cases hl : len = 12#5
    · subst hl
      exact ⟨_, execEnc_wellFormed payload s, ⟨rfl, rfl, rfl⟩, rfl, rfl⟩
    · exact ⟨_, execEnc_wrongLength len payload s hl, ⟨rfl, rfl, rfl⟩, rfl,
        (answer_of_not_wellFormed s.config (mt wellFormed_enc_iff.mp hl)).symm⟩
  | dec len payload =>
    by_cases hl : len = 24#5
    · subst hl
      obtain ⟨t, ht, ⟨e, he, hc, _, _, hop, hlen, hpayload, hrec, _⟩ | ⟨he, _, rfl⟩⟩ := execDec_cases payload s
      · obtain ⟨_, hcorrected, hstatus, hout, hoff⟩ := hc
        rw [hcorrected, hrec] at hout
        refine ⟨t, ht, hoff, by simp [inFlight, hop, hlen, hpayload], ?_⟩
        rw [answer_dec_of_errpat_some he, hstatus, hout, decPayload]
      · exact ⟨_, ht, ⟨rfl, rfl, rfl⟩, rfl, (answer_dec_of_errpat_none he).symm⟩
    · exact ⟨_, execDec_wrongLength payload s len hl, ⟨rfl, rfl, rfl⟩, rfl,
        (answer_of_not_wellFormed s.config (mt wellFormed_dec_iff.mp hl)).symm⟩

/-- A well-formed `DEC` takes the whole payload as its received word (R51), and an `OK` response carries the first
half of the corrected one (R55). -/
theorem execDec_operand_and_payload (payload : Payload) (s : State) : ∃ t, execDec 24#5 payload s = .next t ∧
    t.work.received = receivedOperand payload ∧
    (t.work.status = .ok → t.work.out = decPayload t.work.corrected) := by
  obtain ⟨t, ht, ⟨_, _, hc, _, _, _, _, _, hrec, _⟩ | ⟨_, _, rfl⟩⟩ := execDec_cases payload s
  · obtain ⟨_, _, _, hout, _⟩ := hc
    exact ⟨t, ht, hrec, fun _ => hout⟩
  · exact ⟨_, ht, rfl, fun h => nomatch h⟩

/-! ### The accepted command word -/

/-- The step of a ready core is the command its word decodes to (R46). -/
theorem step_of_cmdReady {s : State} (hready : s.cmdReady = true) (hvalid : s.pins.cmdValid = true) :
    step s = exec (decode s.pins.cmd) s := by
  obtain ⟨hbusy, hrst⟩ : s.busy = false ∧ s.pins.rst = false := by simpa [State.cmdReady] using hready
  simpa [hbusy, hrst, hvalid] using step_cases s

theorem inFlight_eq_enc_iff {w : Work} {len : BitVec 5} {payload : Payload} :
    inFlight w = .enc len payload ↔ w.op = .enc ∧ w.len = len ∧ w.payload = payload := by
  cases ho : w.op <;> simp [inFlight, ho]

theorem inFlight_eq_dec_iff {w : Work} {len : BitVec 5} {payload : Payload} :
    inFlight w = .dec len payload ↔ w.op = .dec ∧ w.len = len ∧ w.payload = payload := by
  cases ho : w.op <;> simp [inFlight, ho]

/-- The latched fields are those of the word that was decoded (R47, R48). -/
theorem latched_of_inFlight_eq_decode {w : Work} {cmd : CmdWord} (h : inFlight w = decode cmd) :
    w.op = (if cmd.getLsbD 29 = false then .enc else .dec) ∧ w.len = fieldLen cmd ∧ w.payload = fieldPayload cmd := by
  have hbit : cmd.getLsbD 29 = (fieldOp cmd).getLsbD 0 := bits_of_fields cmd 29 (by decide)
  rw [hbit]
  rcases fieldOp_cases cmd with hop | hop
  · rw [decode_enc cmd hop, inFlight_eq_enc_iff] at h
    simpa [hop] using h
  · rw [decode_dec cmd hop, inFlight_eq_dec_iff] at h
    simpa [hop] using h

/-! ### The obligations -/

/-- Settles O4, by the two patterns of the six bits `OP` and `LEN`. -/
theorem everyCommandWordIsPerformedOrRefused : Obligations.EveryCommandWordIsPerformedOrRefused := by
  intro w s
  refine ⟨fun h => ?_, fun h => ?_, fun henc hdec => ?_⟩
  · rw [decode_of_encPattern h]
    exact ⟨_, execEnc_wellFormed _ s, rfl, dataOperand_fieldPayload w, rfl, rfl⟩
  · rw [decode_of_decPattern h]
    obtain ⟨t, ht, _, _, hans⟩ := exec_answers (.dec 24#5 (fieldPayload w)) s
    obtain ⟨t', ht', hrec, _⟩ := execDec_operand_and_payload (fieldPayload w) s
    cases ht.symm.trans ht'
    refine ⟨t, ht, hrec, ?_⟩
    rw [hans, hrec]
    rfl
  · obtain ⟨t, ht, _, _, hans⟩ := exec_answers (decode w) s
    have hbad := answer_of_not_wellFormed s.config (not_wellFormed_decode henc hdec)
    obtain ⟨hstatus, hout⟩ := Prod.mk.inj (hans.trans hbad)
    exact ⟨t, ht, hstatus, hout⟩

/-- Settles O17: the codeword is `[data | data · B]`, and the response word carries it from bit 23 down. -/
theorem encAnswersTheSystematicCodeword : Obligations.EncAnswersTheSystematicCodeword := by
  intro payload s
  let b := s.config.b
  have hfirst := firstHalf_encodeData b (dataOperand payload)
  have hsecond := secondHalf_encodeData b (dataOperand payload)
  refine ⟨_, execEnc_wellFormed payload s, ⟨rfl, rfl, rfl⟩, rfl, rfl, rfl, hfirst, fun k => ?_, rsp_getLsbD _,
    rsp_status _, (rsp_firstHalf _).trans hfirst, (rsp_secondHalf _).trans hsecond⟩
  exact (congrArg (elem · k) hsecond).trans (elem_vecMul _ _ k)

/-- Settles O18: `ENC` reads its payload through `dataOperand` alone. -/
theorem encIgnoresTheUpperPayloadBits : Obligations.EncIgnoresTheUpperPayloadBits := by
  intro payload payload' s h
  have hdata : dataOperand payload = dataOperand payload' := h
  refine ⟨_, _, execEnc_wellFormed payload s, execEnc_wellFormed payload' s, ?_, hdata, elem_dataOperand payload⟩
  simp [State.rsp, hdata]

/-- Settles O23, by the cases of the answer. -/
theorem outcomesACommandCanReport : Obligations.OutcomesACommandCanReport := by
  intro i s
  obtain ⟨t, ht, hoff, _, hans⟩ := exec_answers i s
  have hstatus : t.work.status = (answer s.config i).1 := congrArg Prod.fst hans
  refine ⟨t, ht, hoff, rsp_status t, rsp_out t, ?_⟩
  rw [rsp_status, hstatus]
  obtain ⟨hwf, ha⟩ | ⟨hwf, ha, hc, hi⟩ | ⟨hwf, ha⟩ := answer_cases s.config i
  · simp [ha, hwf, statusCode]
  · simp [ha, hwf, hc, hi, statusCode]
  · simp [ha, hwf, statusCode]

/-- Settles O24, by the cases of the answer: an answer that is not `OK` has payload 0. -/
theorem noDataWithAnError : Obligations.NoDataWithAnError := by
  intro i s
  obtain ⟨t, ht, _, _, hans⟩ := exec_answers i s
  refine ⟨t, ht, fun hbad => ?_⟩
  rw [rsp_out]
  obtain ⟨_, ha⟩ | ⟨_, ha, _⟩ | ⟨_, ha⟩ := answer_cases s.config i
  · exact absurd ((congrArg Prod.fst hans).trans ha) hbad
  · exact congrArg Prod.snd (hans.trans ha)
  · exact congrArg Prod.snd (hans.trans ha)

/-- Settles O35, by the layout of the received word and of the payload on the bus. -/
theorem decOperandAndOkPayload : Obligations.DecOperandAndOkPayload := by
  intro payload s
  obtain ⟨t, ht, hrec, hout⟩ := execDec_operand_and_payload payload s
  refine ⟨t, ht, ?_⟩
  rw [hrec]
  refine ⟨elem_eq_getLsbD payload, firstHalf_eq_extractLsb' payload, secondHalf_eq_extractLsb' payload,
    fun hok => ⟨?_, fun i => ?_⟩⟩
  · rw [rsp_firstHalf, hout hok, firstHalf_decPayload]
  · rw [rsp_getLsbD_secondHalf, hout hok, secondHalf_decPayload, elem_firstHalf]

/-- Settles O46: the step is the decoded command, which latches the fields it was decoded from. -/
theorem acceptLatchesTheFields : Obligations.AcceptLatchesTheFields := by
  intro s hready hvalid
  obtain ⟨t, ht, hoff, hfields, _⟩ := exec_answers (decode s.pins.cmd) s
  exact ⟨t, (step_of_cmdReady hready hvalid).trans ht, hoff, latched_of_inFlight_eq_decode hfields⟩

end Machine

end Sys2Proof
end

section
/-! PROOFS. The GF(2) primitives against independent readings of the spec (40_gf2_algebra.md): an XOR-reduction as
a parity, a weight as a number of indices, and each checked form at operands that fit and that do not. -/

namespace Sys2Proof.Machine

/-! ### Parity and weight as counts -/

/-- An XOR-reduction is 1 if an odd number of its bits are 1, else 0 (R70). -/
theorem xorReduce_eq_odd_count (l : List Bool) : xorReduce l = decide (l.count true % 2 = 1) := by
  induction l with
  | nil => rfl
  | cons x l ih =>
    have hcons : xorReduce (x :: l) = xor x (xorReduce l) := rfl
    have hflip : (l.count true + 1) % 2 = 1 ↔ ¬ l.count true % 2 = 1 := by omega
    rw [hcons, ih, List.count_cons]
    cases x
    case false => simp
    case true => simp only [hflip, beq_self_eq_true, if_true, decide_not, Bool.true_xor]

/-- A weight is a number of indices (R76). -/
theorem weight_eq_card {n : Nat} (v : Vec n) : weight v = (Finset.univ.filter fun i => elem v i = true).card := by
  rw [weight, List.countP_eq_length_filter, ← List.toFinset_card_of_nodup ((List.nodup_finRange n).filter _)]
  congr 1
  ext i
  simp

/-! ### The checked forms at operands that fit and at operands that do not -/

section Checked

variable {n m p q : Nat}

@[simp] theorem matMulChecked_fit (A : Mat n m) (C : Mat m q) : matMulChecked A C = .ok (matMul A C) := by
  simp [matMulChecked]

theorem matMulChecked_of_ne (h : m ≠ p) (A : Mat n m) (C : Mat p q) :
    matMulChecked A C = .error .dimensionMismatch := dif_neg h.symm

@[simp] theorem vecMulChecked_fit (v : Vec m) (C : Mat m q) : vecMulChecked v C = .ok (vecMul v C) := by
  simp [vecMulChecked]

theorem vecMulChecked_of_ne (h : m ≠ p) (v : Vec m) (C : Mat p q) :
    vecMulChecked v C = .error .dimensionMismatch := dif_neg h.symm

@[simp] theorem hconcatChecked_fit (A : Mat n m) (C : Mat n q) : hconcatChecked A C = .ok (hconcat A C) := by
  simp [hconcatChecked]

theorem hconcatChecked_of_ne (h : n ≠ p) (A : Mat n m) (C : Mat p q) :
    hconcatChecked A C = .error .rowCountMismatch := dif_neg h.symm

@[simp] theorem vecXorChecked_fit (a b : Vec n) : vecXorChecked a b = .ok (vecXor a b) := by
  simp [vecXorChecked]

theorem vecXorChecked_of_ne (h : n ≠ p) (a : Vec n) (b : Vec p) :
    vecXorChecked a b = .error .lengthMismatch := dif_neg h.symm

end Checked

/-- `[I | 0]` and `[0 | I]` differ in their entry (0,0), so concatenation is not commutative (R73). -/
theorem hconcat_identity_zeroMat_ne : hconcat identity (zeroMat 12 12) ≠ hconcat (zeroMat 12 12) identity := by
  intro h
  have h00 := mat_ext_iff.mp h 0 (Fin.castAdd 12 0)
  rw [entry_hconcat_left, entry_hconcat_left, entry_identity, entry_zeroMat] at h00
  exact absurd h00 (by decide)

/-! ### The obligations -/

/-- Settles O5, by the parity of an XOR-reduction and the entries of a product. -/
theorem matrixProduct : Obligations.MatrixProduct := by
  refine ⟨by decide, xorReduce_eq_odd_count, fun n m p q => ⟨fun A C => ?_, fun A C h => ?_, fun v C => ?_,
    fun v C h => ?_⟩⟩
  · exact ⟨matMulChecked_fit A C, entry_matMul A C, row_matMul A C⟩
  · exact matMulChecked_of_ne h A C
  · exact ⟨vecMulChecked_fit v C, elem_vecMul v C⟩
  · exact vecMulChecked_of_ne h v C

/-- Settles O6, by the entries of a transpose and of a column. -/
theorem transposeAndColumn : Obligations.TransposeAndColumn :=
  fun _ _ A => ⟨fun i k => entry_transpose A k i, fun k i => elem_column A k i⟩

/-- Settles O7, with `B` = 0 for the order of concatenation. -/
theorem concatenationAndXor : Obligations.ConcatenationAndXor := by
  refine ⟨⟨zeroMat 12 12, hconcat_identity_zeroMat_ne⟩, fun n m p q => ⟨fun A C => ?_, fun A C h => ?_,
    fun a b => ?_, fun a b h => ?_⟩⟩
  · exact ⟨hconcatChecked_fit A C, entry_hconcat_left A C, entry_hconcat_right A C⟩
  · exact hconcatChecked_of_ne h A C
  · exact ⟨vecXorChecked_fit a b, elem_vecXor a b⟩
  · exact vecXorChecked_of_ne h a b

/-- Settles O8, by the weight as a number of indices and its bound. -/
theorem hammingWeight : Obligations.HammingWeight := fun _ a => ⟨weight_eq_card a, weight_le a⟩

/-- Settles O9, by the elements of each vector form. -/
theorem vectorFormsOfTheDecoder : Obligations.VectorFormsOfTheDecoder :=
  ⟨fun _ _ a b => ⟨elem_concat_left a b, elem_concat_right a b⟩,
    fun j => ⟨fun i => elem_unitVector i j, weight_unitVector j⟩, elem_zeroVec, elem_firstHalf⟩

end Sys2Proof.Machine
end

section
/-! PROOFS. The code constants row by row and entry by entry (41_code_constants.md R85, R90, R91). -/

namespace Sys2Proof.Machine

section Constants

variable (b : Mat 12 12) (i k : Index)

theorem row_identity : row i identity = unitVector i :=
  vec_ext fun k => by rw [elem_row, entry_identity, elem_unitVector, eq_comm_decide]

theorem column_identity : column i identity = unitVector i :=
  vec_ext fun k => by rw [elem_column, entry_identity, elem_unitVector]

theorem row_generator : row i (generator b) = concat (unitVector i) (row i b) := by
  rw [generator, row_hconcat, row_identity]

theorem entry_parityCheckT_lower_eq_identity :
    entry (parityCheckT b) (Fin.natAdd 12 i) k = entry identity k i := by
  rw [entry_parityCheckT_lower, entry_identity]

theorem row_parityCheckT_upper : row (Fin.castAdd 12 i) (parityCheckT b) = row i (transpose b) :=
  vec_ext fun k => by rw [elem_row, elem_row, entry_parityCheckT_upper, entry_transpose]

theorem row_parityCheckT_lower : row (Fin.natAdd 12 i) (parityCheckT b) = row i identity :=
  vec_ext fun k => by rw [elem_row, elem_row, entry_parityCheckT_lower, entry_identity, eq_comm_decide]

/-- A symmetric `B` is its own transpose, so its rows are the upper rows of `Ht` (R91). -/
theorem row_parityCheckT_upper_of_symmetric (h : IsSymmetric b) :
    row (Fin.castAdd 12 i) (parityCheckT b) = row i b :=
  (row_parityCheckT_upper b i).trans (congrArg (row i) h)

end Constants

/-! ### The obligation -/

/-- Settles O14, by the rows and entries of each constant. -/
theorem constantMatricesEntryByEntry : Obligations.ConstantMatricesEntryByEntry := fun b i k =>
  ⟨entry_identity i k, row_identity i, column_identity i,
    entry_hconcat_left identity b i k, entry_hconcat_right identity b i k, row_generator b i, firstHalf_encodeData b,
    entry_parityCheckT_upper b i k, entry_parityCheckT_lower_eq_identity b i k,
    row_parityCheckT_upper b i, row_parityCheckT_lower b i, row_parityCheckT_upper_of_symmetric b i⟩

end Sys2Proof.Machine
end

section
/-! PROOFS. The branches of `DEC` (43_decode.md R101 to R114): in each branch, what the search that leads there has
found, and the error vector with which the word is corrected. -/

namespace Sys2Proof.Machine

/-! ### What the searches find -/

/-- `s[k]`, from column k of `Ht` (R94, R102). -/
theorem elem_syndrome (b : Mat 12 12) (r : Vec 24) (k : Index) :
    elem (syndrome b r) k
      = xor (xorReduce ((List.finRange 12).map fun u => elem r (Fin.castAdd 12 u) && entry b k u))
          (elem r (Fin.natAdd 12 k)) := by
  simp [syndrome_eq]

/-- A list with two different members has at least two. -/
theorem exists_cons_cons_of_mem_ne {α : Type} {l : List α} {a b : α} (ha : a ∈ l) (hb : b ∈ l) (hne : b ≠ a) :
    ∃ x y rest, l = x :: y :: rest := by
  rcases l with _ | ⟨x, _ | ⟨y, rest⟩⟩
  · cases ha
  · exact absurd ((List.mem_singleton.mp hb).trans (List.mem_singleton.mp ha).symm) hne
  · exact ⟨x, y, rest, rfl⟩

section Found

variable {payload : Payload} {s : State}

/-- The candidates that `SearchRight` leaves in `sj` (R104). -/
theorem withSearch_getElem_sj (j : Index) : (withSearch payload s).work.sj[j]
    = candidate s.config.b (syndrome s.config.b (receivedOperand payload)) j :=
  getElem_candidates _ _ j

/-- The right search finds nothing when no candidate is light (R107). -/
theorem withSearch_M_eq_nil
    (hn : ∀ k : Index, 2 < weight (candidate s.config.b (syndrome s.config.b (receivedOperand payload)) k)) :
    (withSearch payload s).work.M = [] := by
  rw [withSearch_M, matchSet_eq_nil_iff]
  intro k
  rw [getElem_candidates]
  exact hn k

/-- The right search finds just j when j's candidate alone is light (R105). -/
theorem withSearch_M_eq_singleton (j : Index)
    (h : ∀ k : Index,
      weight (candidate s.config.b (syndrome s.config.b (receivedOperand payload)) k) ≤ 2 ↔ k = j) :
    (withSearch payload s).work.M = [j] := by
  rw [withSearch_M]
  refine matchSet_eq_singleton _ j fun k => ?_
  rw [getElem_candidates]
  exact h k

end Found

/-! ### The correction -/

/-- `Correction` corrects with the error vector it finds, and offers the result (R114). -/
theorem correctedBy_correction {s : State} {e : Vec 24} (hbusy : s.busy = true) (he : s.work.error = e) :
    CorrectedBy e (correction s) := by
  subst he
  exact ⟨rfl, rfl, rfl, rfl, hbusy, rfl, rfl⟩

/-- An error vector `[0^12 | v]` leaves the first half of the word as it is (R103). -/
theorem firstHalf_vecXor_concat_zeroVec (r : Vec 24) (v : Vec 12) :
    firstHalf (vecXor r (concat (zeroVec 12) v)) = firstHalf r := by
  rw [firstHalf_vecXor, firstHalf_concat, vecXor_zero]

/-- The response word of `UNCORRECTABLE` (R112). -/
theorem packResponse_uncorrectable : packResponse .uncorrectable 0 = 0x1000000#27 := by decide

/-! ### The ends of `DEC`, one per branch -/

/-- The states in which a well-formed `DEC` can end, each with the condition of its branch (R103 to R113). -/
inductive DecEnd (payload : Payload) (s : State) : State → Prop
  | direct (h : weight (withSyndrome payload s).work.s ≤ 3) :
    DecEnd payload s (correction (direct (withSyndrome payload s)))
  | exactlyOneMatch (h : 3 < weight (withSyndrome payload s).work.s) (j : Index)
    (hM : (withSearch payload s).work.M = [j]) :
    DecEnd payload s (correction (exactlyOneMatch j (withSearch payload s)))
  | multipleMatches (h : 3 < weight (withSyndrome payload s).work.s) (j k : Index) (rest : List Index)
    (hM : (withSearch payload s).work.M = j :: k :: rest) :
    DecEnd payload s (correction (multipleMatches j (k :: rest) (withSearch payload s)))
  | directLeft (h : 3 < weight (withSyndrome payload s).work.s) (hM : (withSearch payload s).work.M = [])
    (h2 : (withSyndrome2 payload s).work.weight2 ≤ 3) :
    DecEnd payload s (correction (directLeft (withSyndrome2 payload s)))
  | searchLeft (h : 3 < weight (withSyndrome payload s).work.s) (hM : (withSearch payload s).work.M = [])
    (h2 : 3 < (withSyndrome2 payload s).work.weight2) (j : Index)
    (hj : firstLeft s.config.b (withSyndrome2 payload s).work.s2 = some j) :
    DecEnd payload s (correction (searchLeftMatch j (withSyndrome2 payload s)))
  | fallback (h : 3 < weight (withSyndrome payload s).work.s) (hM : (withSearch payload s).work.M = [])
    (h2 : 3 < (withSyndrome2 payload s).work.weight2)
    (hn : firstLeft s.config.b (withSyndrome2 payload s).work.s2 = none) (hc : s.config.compatFallback = true) :
    DecEnd payload s (correction (compatFallback (searchLeftNone (withSyndrome2 payload s))))
  | uncorrectable (h : 3 < weight (withSyndrome payload s).work.s) (hM : (withSearch payload s).work.M = [])
    (h2 : 3 < (withSyndrome2 payload s).work.weight2)
    (hn : firstLeft s.config.b (withSyndrome2 payload s).work.s2 = none) (hc : s.config.compatFallback = false) :
    DecEnd payload s (uncorrectable (searchLeftNone (withSyndrome2 payload s)))

section Ends

variable {payload : Payload} {s t : State}

/-- The branch whose condition holds is the one that is taken. -/
theorem DecEnd.execDec_eq (h : DecEnd payload s t) : execDec 24#5 payload s = .next t := by
  cases h with
  | direct h => exact execDec_direct payload s h
  | exactlyOneMatch h j hM => exact execDec_one payload s h j hM
  | multipleMatches h j k rest hM => exact execDec_many payload s h j k rest hM
  | directLeft h hM h2 => exact execDec_directLeft payload s h hM h2
  | searchLeft h hM h2 j hj => exact execDec_searchLeft payload s h hM h2 j hj
  | fallback h hM h2 hn hc => rw [execDec_exhausted payload s h hM h2 hn, if_pos hc]
  | uncorrectable h hM h2 hn hc => rw [execDec_exhausted payload s h hM h2 hn, if_neg (by simp [hc])]

/-- Every well-formed `DEC` ends in one of them. -/
theorem exists_decEnd (payload : Payload) (s : State) : ∃ t, DecEnd payload s t := by
  rcases Nat.lt_or_ge 3 (weight (withSyndrome payload s).work.s) with h | h
  · rcases hM : (withSearch payload s).work.M with _ | ⟨j, _ | ⟨k, rest⟩⟩
    · rcases Nat.lt_or_ge 3 (withSyndrome2 payload s).work.weight2 with h2 | h2
      · rcases hj : firstLeft s.config.b (withSyndrome2 payload s).work.s2 with _ | j
        · cases hc : s.config.compatFallback
          · exact ⟨_, .uncorrectable h hM h2 hj hc⟩
          · exact ⟨_, .fallback h hM h2 hj hc⟩
        · exact ⟨_, .searchLeft h hM h2 j hj⟩
      · exact ⟨_, .directLeft h hM h2⟩
    · exact ⟨_, .exactlyOneMatch h j hM⟩
    · exact ⟨_, .multipleMatches h j k rest hM⟩
  · exact ⟨_, .direct h⟩

theorem decEnd_iff : DecEnd payload s t ↔ execDec 24#5 payload s = .next t := by
  refine ⟨DecEnd.execDec_eq, fun h => ?_⟩
  obtain ⟨t', ht'⟩ := exists_decEnd payload s
  cases ht'.execDec_eq.symm.trans h
  exact ht'

/-- Past `Direct`, nothing writes what `SearchRight` has found (R104). -/
theorem DecEnd.keeps_search (hend : DecEnd payload s t) (h : 3 < weight (withSyndrome payload s).work.s) :
    t.work.s = (withSyndrome payload s).work.s ∧ t.work.sj = (withSearch payload s).work.sj ∧
      t.work.M = (withSearch payload s).work.M := by
  cases hend with
  | direct h' => exact absurd h (Nat.not_lt.mpr h')
  | exactlyOneMatch | multipleMatches | directLeft | searchLeft | fallback | uncorrectable => exact ⟨rfl, rfl, rfl⟩

/-- With the fallback, `UNCORRECTABLE` is never produced (R113). -/
theorem DecEnd.status_of_compatFallback (hend : DecEnd payload s t) (hc : s.config.compatFallback = true) :
    t.work.status = .ok := by
  cases hend with
  | direct | exactlyOneMatch | multipleMatches | directLeft | searchLeft | fallback => rfl
  | uncorrectable _ _ _ _ hc' => exact absurd (hc.symm.trans hc') (by decide)

/-- A branch taken without the fallback, other than the report, is taken in the other mode too, and writes the same
(R113). -/
theorem DecEnd.of_no_fallback
    (hend : DecEnd payload { s with config := { s.config with compatFallback := false } } t)
    (hstatus : t.work.status ≠ .uncorrectable) : ∃ t', DecEnd payload s t' ∧ t'.work = t.work := by
  cases hend with
  | direct h => exact ⟨_, .direct (s := s) h, rfl⟩
  | exactlyOneMatch h j hM => exact ⟨_, .exactlyOneMatch (s := s) h j hM, rfl⟩
  | multipleMatches h j k rest hM => exact ⟨_, .multipleMatches (s := s) h j k rest hM, rfl⟩
  | directLeft h hM h2 => exact ⟨_, .directLeft (s := s) h hM h2, rfl⟩
  | searchLeft h hM h2 j hj => exact ⟨_, .searchLeft (s := s) h hM h2 j hj, rfl⟩
  | fallback _ _ _ _ hc => cases hc
  | uncorrectable => exact absurd rfl hstatus

end Ends

/-! ### The obligations -/

/-- Settles O27: the second half of the error vector is the syndrome itself. -/
theorem decDirect : Obligations.DecDirect := by
  intro payload s b r syn h
  exact ⟨_, execDec_direct payload s h, rfl, rfl, elem_syndrome b r, correctedBy_correction rfl rfl,
    fun i => ⟨(elem_concat_left _ _ i).trans (elem_zeroVec i), elem_concat_right _ _ i⟩,
    firstHalf_vecXor_concat_zeroVec r syn⟩

/-- Settles O28: each later branch keeps what the search has found. -/
theorem decSearchRight : Obligations.DecSearchRight := by
  intro payload s b syn h
  obtain ⟨t, hend⟩ := exists_decEnd payload s
  obtain ⟨hs, hsj, hM⟩ := hend.keeps_search h
  refine ⟨t, hend.execDec_eq, hs, ?_⟩
  rw [hsj, hM, withSearch_M]
  exact ⟨withSearch_getElem_sj, mem_matchSet _, matchSet_pairwise _⟩

/-- Settles O29, by the `M` of one element. -/
theorem decExactlyOneMatch : Obligations.DecExactlyOneMatch := by
  intro payload s j b syn h hj
  have hM : (withSearch payload s).work.M = [j] := withSearch_M_eq_singleton j hj
  refine ⟨_, execDec_one payload s h j hM, rfl, hM, rfl, correctedBy_correction rfl ?_, fun i => ?_⟩
  · exact congrArg (concat (unitVector j)) (withSearch_getElem_sj j)
  · exact ⟨(elem_concat_left _ _ i).trans (elem_unitVector i j), elem_concat_right _ _ i⟩

/-- Settles O30: `lightest` takes the least of the matches, of which there are two. -/
theorem decMultipleMatches : Obligations.DecMultipleMatches := by
  intro payload s j k b syn wt h hj hk hne hleast
  have hmem : ∀ l : Index, l ∈ (withSearch payload s).work.M ↔ wt l ≤ 2 := fun l => by
    rw [withSearch_M, mem_matchSet, getElem_candidates]
    rfl
  obtain ⟨x, y, rest, hM⟩ := exists_cons_cons_of_mem_ne ((hmem j).mpr hj) ((hmem k).mpr hk) hne
  have hlight : lightest (withSearch payload s).work.sj x (y :: rest) = j := by
    refine lightest_eq _ _ _ _ (hM ▸ (hmem j).mpr hj) fun l hl => ?_
    rw [lexLe, withSearch_getElem_sj, withSearch_getElem_sj]
    exact hleast l ((hmem l).mp (hM ▸ hl))
  refine ⟨_, execDec_many payload s h x y rest hM, rfl, ?_, hlight, correctedBy_correction rfl ?_⟩
  · exact (by simp [hM] : 2 ≤ (withSearch payload s).work.M.length)
  · rw [multipleMatches_work]
    simp only [hlight, withSearch_getElem_sj]
    rfl

/-- Settles O31, by the second syndrome. -/
theorem decDirectLeft : Obligations.DecDirectLeft := by
  intro payload s b syn syn2 h hn h2
  have hM : (withSearch payload s).work.M = [] := withSearch_M_eq_nil hn
  exact ⟨_, execDec_directLeft payload s h hM h2, rfl, hM, rfl, rfl, elem_vecMul syn b,
    correctedBy_correction rfl rfl,
    fun i => ⟨elem_concat_left _ _ i, (elem_concat_right _ _ i).trans (elem_zeroVec i)⟩⟩

/-- Settles O32, by the first column that qualifies. -/
theorem decSearchLeft : Obligations.DecSearchLeft := by
  intro payload s j b syn syn2 h hn h2 hj hfirst
  have hstop : firstLeft b syn2 = some j := (firstLeft_eq_some_iff b syn2 j).mpr ⟨hj, hfirst⟩
  exact ⟨_, execDec_searchLeft payload s h (withSearch_M_eq_nil hn) h2 j hstop, rfl, rfl, rfl, rfl,
    correctedBy_correction rfl rfl⟩

/-- Settles O33: the exhausted search goes to the report. -/
theorem decUncorrectable : Obligations.DecUncorrectable := by
  intro payload s b syn syn2 h hn h2 hn2 hc
  have hend := DecEnd.uncorrectable h (withSearch_M_eq_nil hn) h2 ((firstLeft_eq_none_iff b syn2).mpr hn2) hc
  exact ⟨_, hend.execDec_eq, ⟨rfl, rfl, rfl⟩, rfl, rfl, packResponse_uncorrectable, rfl, rfl⟩

/-- Settles O34: the two modes part at the exhausted search only. -/
theorem compatibilityFallback : Obligations.CompatibilityFallback := by
  intro payload s b syn syn2 hc
  obtain ⟨t, hend⟩ := exists_decEnd payload s
  refine ⟨t, hend.execDec_eq, hend.status_of_compatFallback hc, fun h hn h2 hn2 => ?_, fun t0 ht0 hstatus => ?_⟩
  · have hfall := DecEnd.fallback h (withSearch_M_eq_nil hn) h2 ((firstLeft_eq_none_iff b syn2).mpr hn2) hc
    cases hend.execDec_eq.symm.trans hfall.execDec_eq
    refine ⟨correctedBy_correction rfl rfl, ?_⟩
    exact congrArg decPayload (vecXor_zero (receivedOperand payload))
  · obtain ⟨t', hend', hwork⟩ := (decEnd_iff.mpr ht0).of_no_fallback hstatus
    cases hend.execDec_eq.symm.trans hend'.execDec_eq
    exact hwork.symm

end Sys2Proof.Machine
end

section
/-! PROOFS. The transition table of 43_decode.md R117, row by row, in the fine account. -/

namespace Sys2Proof.Machine

/-! ### The rows -/

/-- The fields latched by the accept of a word (R47, R48). -/
theorem latch_decode_work (w : CmdWord) (s : State) : (latch (decode w) s).work
    = { s.work with op := if fieldOp w = 0#1 then .enc else .dec, len := fieldLen w, payload := fieldPayload w } := by
  rcases fieldOp_cases w with h | h
  · rw [decode_enc w h, if_pos h]
    rfl
  · rw [decode_dec w h, if_neg (by simp [h])]
    rfl

theorem latch_busy (i : Instr) (s : State) : (latch i s).busy = true := by cases i <;> rfl

theorem latch_phase (i : Instr) (s : State) : (latch i s).phase = .checkLength := by cases i <;> rfl

/-- A core that is not busy accepts the command offered (R46). -/
theorem cycle_of_offered {s : State} (hrst : s.pins.rst = false) (hbusy : s.busy = false)
    (hvalid : s.pins.cmdValid = true) : cycle s = .next (latch (decode s.pins.cmd) s) := by
  simpa [hrst, hbusy, hvalid] using cycle_cases s

/-- A busy core out of reset makes its phase's transition. -/
theorem cycle_of_busy {s : State} (hrst : s.pins.rst = false) (hbusy : s.busy = true) : cycle s = advance s := by
  simpa [hrst, hbusy] using cycle_cases s

/-- Where `SearchRight` goes, as R117 has it. -/
theorem afterSearchRight_eq (M : List Index) : afterSearchRight M
    = if M.length = 0 then .noMatch else if M.length = 1 then .exactlyOneMatch else .multipleMatches := by
  rcases afterSearchRight_cases M with ⟨rfl, h⟩ | ⟨hM, h⟩ | ⟨hM, h⟩
  · exact h
  · rw [h, if_neg (by omega), if_pos hM]
  · rw [h, if_neg (by omega), if_neg (by omega)]

section Rows

variable {s : State}

theorem advance_computeSyndrome (h : s.phase = .computeSyndrome) : advance s
    = .next (goto (if weight (computeSyndrome s).work.s ≤ 3 then .direct else .searchRight) (computeSyndrome s)) := by
  rcases Nat.lt_or_ge 3 (weight (computeSyndrome s).work.s) with hw | hw
  · rw [advance_computeSyndrome_search h hw, if_neg (Nat.not_le.mpr hw)]
  · rw [advance_computeSyndrome_direct h hw, if_pos hw]

theorem advance_computeSyndrome2 (h : s.phase = .computeSyndrome2) : advance s
    = .next (goto (if (computeSyndrome2 s).work.weight2 ≤ 3 then .directLeft else .searchLeft)
        (computeSyndrome2 s)) := by
  rcases Nat.lt_or_ge 3 (computeSyndrome2 s).work.weight2 with hw | hw
  · rw [advance_computeSyndrome2_search h hw, if_neg (Nat.not_le.mpr hw)]
  · rw [advance_computeSyndrome2_direct h hw, if_pos hw]

/-- The row of `MultipleMatches` takes an element of `M` with the least pair (R106). -/
theorem advance_multipleMatches_least (h : s.phase = .multipleMatches) (hM : 2 ≤ s.work.M.length) :
    ∃ (t : State) (j : Index), advance s = .next t ∧ t.phase = .correction ∧
      t.work = { s.work with j := j, error := concat (unitVector j) s.work.sj[j] } ∧
      j ∈ s.work.M ∧ ∀ k ∈ s.work.M, lexLe s.work.sj j k := by
  rcases e : s.work.M with _ | ⟨x, _ | ⟨y, rest⟩⟩
  · simp [e] at hM
  · simp [e] at hM
  · obtain ⟨hmem, hle⟩ := lightest_spec s.work.sj x (y :: rest)
    exact ⟨_, _, advance_multipleMatches h x y rest e, rfl, rfl, hmem, hle⟩

end Rows

/-! ### The obligation -/

/-- Settles O55, row by row: under its condition each row is one equation of `advance`. -/
theorem transitionTableRowByRow : Obligations.TransitionTableRowByRow := by
  refine ⟨fun s hrst hbusy hvalid => ?_, fun s hrst hbusy => ?_⟩
  · exact ⟨_, cycle_of_offered hrst hbusy hvalid, latch_busy _ s, latch_phase _ s, latch_decode_work _ s⟩
  rw [cycle_of_busy hrst hbusy]
  refine ⟨?checkLengthWrong, ?checkLengthDec, ?checkLengthEnc, ?encode, ?computeSyndrome, ?direct, ?searchRight,
    ?exactlyOneMatch, ?multipleMatches, ?noMatch, ?computeSyndrome2, ?directLeft, ?searchLeftMatch, ?searchLeftNone,
    ?exhaustedFallback, ?exhaustedReport, ?uncorrectable, ?correction, ?respond⟩
  case checkLengthWrong => exact fun h hl => ⟨_, advance_checkLength_wrong h hl, rfl, hbusy, rfl, rfl⟩
  case checkLengthDec => exact fun h ho hl => ⟨_, advance_checkLength_dec h ho hl, rfl, rfl⟩
  case checkLengthEnc => exact fun h ho hl => ⟨_, advance_checkLength_enc h ho hl, rfl, rfl⟩
  case encode => exact fun h => ⟨_, advance_encode h, ⟨hbusy, rfl, rfl⟩, rfl⟩
  case computeSyndrome => exact fun h => ⟨_, advance_computeSyndrome h, rfl, rfl⟩
  case direct => exact fun h => ⟨_, advance_direct h, rfl, rfl⟩
  case searchRight =>
    exact fun h => ⟨_, advance_searchRight h, rfl, getElem_candidates _ _, mem_matchSet _, matchSet_pairwise _,
      afterSearchRight_eq _⟩
  case exactlyOneMatch => exact fun h j hM => ⟨_, advance_exactlyOneMatch h j hM, rfl, rfl⟩
  case multipleMatches => exact advance_multipleMatches_least
  case noMatch => exact fun h => ⟨_, advance_noMatch h, rfl, rfl⟩
  case computeSyndrome2 => exact fun h => ⟨_, advance_computeSyndrome2 h, rfl, rfl⟩
  case directLeft => exact fun h => ⟨_, advance_directLeft h, rfl, rfl⟩
  case searchLeftMatch =>
    intro h j hj hfirst
    exact ⟨_, advance_searchLeft_match h j ((firstLeft_eq_some_iff _ _ j).mpr ⟨hj, hfirst⟩), rfl, rfl⟩
  case searchLeftNone =>
    intro h hn
    exact ⟨_, advance_searchLeft_none h ((firstLeft_eq_none_iff _ _).mpr hn), rfl, rfl⟩
  case exhaustedFallback => exact fun h hc => ⟨_, advance_exhausted_compat h hc, rfl, rfl⟩
  case exhaustedReport => exact fun h hc => ⟨_, advance_exhausted_report h hc, rfl, rfl⟩
  case uncorrectable => exact fun h => ⟨_, advance_uncorrectable h, ⟨hbusy, rfl, rfl⟩, rfl⟩
  case correction => exact fun h => ⟨_, advance_correction h, ⟨hbusy, rfl, rfl⟩, rfl⟩
  case respond => exact fun ⟨_, hphase, hvalid⟩ hready => ⟨_, advance_respond_give hphase hvalid hready, rfl, rfl⟩

end Sys2Proof.Machine
end

section
/-! PROOFS. What a host sees of the two commands (45_properties.md R145, R149): the response is a function of the
command word and the parameters, and decoding undoes encoding. -/

namespace Sys2Proof.Machine

/-! ### The response of a ready core -/

/-- The response word carries the answer of the command (R52). -/
theorem rsp_of_answer {t : State} {c : Config} {i : Instr} (h : (t.work.status, t.work.out) = answer c i) :
    t.rsp = packResponse (answer c i).1 (answer c i).2 := by
  rw [← h]
  rfl

/-- A ready core that is offered a word responds with what the word and the parameters determine (R37, R46). -/
theorem step_offers_response {s : State} (hready : s.cmdReady = true) (hvalid : s.pins.cmdValid = true) :
    ∃ t, step s = .next t ∧ Offering t ∧ t.rsp = response s.config s.pins.cmd := by
  obtain ⟨t, ht, hoff, _, hans⟩ := exec_answers (decode s.pins.cmd) s
  exact ⟨t, (step_of_cmdReady hready hvalid).trans ht, hoff, rsp_of_answer hans⟩

/-! ### Decoding a codeword -/

/-- The operand of `ENC <12 digits>` is the digits (R50, R60). -/
@[simp] theorem dataOperand_append (u d : Vec 12) : dataOperand (u ++ d) = d :=
  BitVec.extractLsb'_append_eq_right

theorem concat_zeroVec : concat (zeroVec 12) (zeroVec 12) = zeroVec 24 := by decide

/-- With `B` symmetric, a codeword has syndrome zero: `d · B` and the parity cancel (R97). -/
theorem syndrome_encodeData {b : Mat 12 12} (h : IsSymmetric b) (d : Vec 12) :
    syndrome b (encodeData b d) = zeroVec 12 := by
  rw [syndrome_of_symmetric h, firstHalf_encodeData, secondHalf_encodeData, vecXor_self]

/-- The syndrome zero is `Direct` with no error at all (R103). -/
theorem errpat_zeroVec (c : Config) : errpat c (zeroVec 12) = some (zeroVec 24) := by
  rw [errpat_direct c _ (by rw [weight_zeroVec]; decide), concat_zeroVec]

/-- `decode(encode(d)) = d` (R145), for the two functions of the source. -/
theorem decodeData_encodeData {c : Config} (h : IsSymmetric c.b) (d : Vec 12) :
    decodeData c (encodeData c.b d) = some d := by
  rw [decodeData, syndrome_encodeData h, errpat_zeroVec, Option.map_some, vecXor_zero, firstHalf_encodeData]

theorem answer_encOf (c : Config) (d : Vec 12) : answer c (encOf d) = (.ok, encodeData c.b d) := by
  simp [answer, encOf, encPayload, busOf]

theorem answer_decOf_of_decodeData {c : Config} {r : Vec 24} {d : Vec 12} (h : decodeData c r = some d) :
    answer c (decOf r) = (.ok, (busOf d).setWidth 24) := by
  simp [answer, decOf, receivedOperand, vecOf, h]

/-! ### The obligations -/

/-- Settles O25: both cores offer the one response that the word and their common parameters determine. -/
theorem sameWordSameResponse : Obligations.SameWordSameResponse := by
  intro s s' hconfig hready hready' hvalid hvalid' hcmd
  obtain ⟨t, ht, hoff, hrsp⟩ := step_offers_response hready hvalid
  obtain ⟨t', ht', hoff', hrsp'⟩ := step_offers_response hready' hvalid'
  exact ⟨t, t', ht, ht', hoff, hoff', by rw [hrsp, hrsp', hconfig, hcmd]⟩

/-- Settles O39: `ENC` answers the codeword of `d`, and the codeword decodes to `d`, whatever the fallback setting. -/
theorem roundTrip : Obligations.RoundTrip := by
  intro s s' d hsymm hb
  obtain ⟨t, ht, _, _, hans⟩ := exec_answers (encOf d) s
  obtain ⟨hstatus, hout⟩ := Prod.mk.inj (hans.trans (answer_encOf s.config d))
  obtain ⟨t', ht', _, _, hans'⟩ := exec_answers (decOf t.work.out) s'
  have hdecode : decodeData s'.config t.work.out = some d := by
    rw [hout, ← hb]
    exact decodeData_encodeData (by rw [hb]; exact hsymm) d
  obtain ⟨hstatus', hout'⟩ := Prod.mk.inj (hans'.trans (answer_decOf_of_decodeData hdecode))
  exact ⟨t, t', ht, hstatus, ht', hstatus', hout'⟩

end Sys2Proof.Machine
end

section
/-! PROOFS. The errors of 60_exceptions.md: where the algebra errors arise (R162 to R164), which status a command can
end with (R161, R166), and the core with no command in flight (R177). -/

namespace Sys2Proof.Machine

/-! ### The algebra errors arise exactly on misfitting operands -/

section Checked

variable {n m p q : Nat}

theorem matMulChecked_eq_error_iff (A : Mat n m) (C : Mat p q) :
    matMulChecked A C = .error .dimensionMismatch ↔ m ≠ p := by
  refine ⟨?_, fun h => matMulChecked_of_ne h A C⟩
  rintro herror rfl
  rw [matMulChecked_fit] at herror
  cases herror

theorem hconcatChecked_eq_error_iff (A : Mat n m) (C : Mat p q) :
    hconcatChecked A C = .error .rowCountMismatch ↔ n ≠ p := by
  refine ⟨?_, fun h => hconcatChecked_of_ne h A C⟩
  rintro herror rfl
  rw [hconcatChecked_fit] at herror
  cases herror

theorem vecXorChecked_eq_error_iff (a : Vec n) (b : Vec p) :
    vecXorChecked a b = .error .lengthMismatch ↔ n ≠ p := by
  refine ⟨?_, fun h => vecXorChecked_of_ne h a b⟩
  rintro herror rfl
  rw [vecXorChecked_fit] at herror
  cases herror

end Checked

/-! ### The status a command ends with -/

/-- The three statuses a command can answer (R166). -/
theorem answer_status_cases (c : Config) (i : Instr) :
    (answer c i).1 = .ok ∨ (answer c i).1 = .uncorrectable ∨ (answer c i).1 = .invalidLength := by
  obtain ⟨_, ha⟩ | ⟨_, ha, _⟩ | ⟨_, ha⟩ := answer_cases c i
  · exact .inl ha
  · exact .inr (.inl (congrArg Prod.fst ha))
  · exact .inr (.inr (congrArg Prod.fst ha))

/-- `INVALID_LENGTH` answers exactly the commands whose length is wrong (R161). -/
theorem answer_status_eq_invalidLength_iff (c : Config) (i : Instr) :
    (answer c i).1 = .invalidLength ↔ ¬ WellFormed i := by
  obtain ⟨hwf, ha⟩ | ⟨hwf, ha, _⟩ | ⟨hwf, ha⟩ := answer_cases c i
  · simp [ha, hwf]
  · simp [ha, hwf]
  · simp [ha, hwf]

/-- Every command completes with the status of its answer. -/
theorem exec_status (i : Instr) (s : State) : ∃ t, exec i s = .next t ∧ t.work.status = (answer s.config i).1 := by
  obtain ⟨t, ht, _, _, hans⟩ := exec_answers i s
  exact ⟨t, ht, congrArg Prod.fst hans⟩

/-- A command of the right length completes with another status than `INVALID_LENGTH` (R161). -/
theorem exec_status_ne_invalidLength {i : Instr} (h : WellFormed i) (s : State) :
    ∃ t, exec i s = .next t ∧ t.work.status ≠ .invalidLength := by
  obtain ⟨t, ht, hstatus⟩ := exec_status i s
  refine ⟨t, ht, ?_⟩
  rw [hstatus, Ne, answer_status_eq_invalidLength_iff]
  exact not_not_intro h

/-- The response word of a command of the wrong length (R52, R53). -/
theorem packResponse_invalidLength : packResponse .invalidLength 0 = 0x2000000#27 := by decide

/-! ### The idle core -/

/-- A ready core that is offered no command keeps its state (R177). -/
theorem step_of_cmdReady_of_not_cmdValid {s : State} (hready : s.cmdReady = true) (hvalid : s.pins.cmdValid = false) :
    step s = .next s := by
  obtain ⟨hbusy, hrst⟩ : s.busy = false ∧ s.pins.rst = false := by simpa [State.cmdReady] using hready
  simpa [hbusy, hrst, hvalid] using step_cases s

theorem acceptedAt_of_not_cmdValid {s : State} (hvalid : s.pins.cmdValid = false) : acceptedAt s = [] := by
  simp [acceptedAt, hvalid]

/-! ### The obligations -/

/-- Settles O21: the wrong length raises its error on the freshly latched fields, and the answer to the right length
has another status. -/
theorem wrongLengthIsAnsweredInvalidLength : Obligations.WrongLengthIsAnsweredInvalidLength := by
  intro len payload s
  refine ⟨fun hlen => ?_, fun hlen => ?_, fun hlen => ?_, fun hlen => ?_⟩
  · exact ⟨_, execEnc_wrongLength len payload s hlen, ⟨rfl, rfl, rfl⟩, packResponse_invalidLength, rfl, rfl, rfl⟩
  · exact ⟨_, execDec_wrongLength payload s len hlen, ⟨rfl, rfl, rfl⟩, packResponse_invalidLength, rfl, rfl, rfl⟩
  · exact exec_status_ne_invalidLength (wellFormed_enc_iff.mpr hlen) s
  · exact exec_status_ne_invalidLength (wellFormed_dec_iff.mpr hlen) s

/-- Settles O12, by each checked form on fitting operands and by the statuses an answer can have. -/
theorem misfitOperandsRaiseTheirError : Obligations.MisfitOperandsRaiseTheirError := by
  refine ⟨fun _ _ _ _ => matMulChecked_eq_error_iff, fun _ _ _ _ => hconcatChecked_eq_error_iff,
    fun _ _ => vecXorChecked_eq_error_iff, fun i s => ?_⟩
  obtain ⟨t, ht, hstatus⟩ := exec_status i s
  refine ⟨t, ht, ?_⟩
  rw [hstatus]
  obtain ha | ha | ha := answer_status_cases s.config i
  · simp [ha]
  · simp [ha]
  · simp [ha]

/-- Settles O48: of the cases of a step, only waiting is left. -/
theorem idleCoreWaits : Obligations.IdleCoreWaits := fun _ hready hvalid =>
  ⟨step_of_cmdReady_of_not_cmdValid hready hvalid, acceptedAt_of_not_cmdValid hvalid⟩

end Sys2Proof.Machine
end

section
/-! PROOFS. Command and response words as numbers and as fields (30_encoding.md sections 2, 5 and 6): writing a
command and reading it back, and the values of R60. -/

namespace Sys2Proof

/-! ### Writing and reading a command word -/

@[simp] theorem decode_encode (i : Instr) : decode (encode i) = i := by
  cases i with
  | enc len payload =>
    rw [encode, decode_enc _ (fieldOp_packCommand .enc len payload), fieldLen_packCommand, fieldPayload_packCommand]
  | dec len payload =>
    rw [encode, decode_dec _ (fieldOp_packCommand .dec len payload), fieldLen_packCommand, fieldPayload_packCommand]

/-! ### Values -/

/-- Words side by side, the first one more significant, read as a number. -/
theorem toNat_append_eq_mul_add {n m : Nat} (x : BitVec n) (y : BitVec m) :
    (x ++ y).toNat = x.toNat * 2 ^ m + y.toNat := by
  rw [BitVec.toNat_append, ← Nat.shiftLeft_add_eq_or_of_lt y.isLt, Nat.shiftLeft_eq]

/-- R60's value of a command word. -/
theorem packCommand_toNat (op : Op) (len : BitVec 5) (payload : Payload) : (packCommand op len payload).toNat
    = (opBit op).toNat * 2 ^ 29 + len.toNat * 2 ^ 24 + payload.toNat := by
  rw [packCommand, toNat_append_eq_mul_add, toNat_append_eq_mul_add, Nat.add_assoc]

/-- R60's value of a response word. -/
theorem Machine.packResponse_toNat (st : Machine.Status) (out : Payload) :
    (Machine.packResponse st out).toNat = (Machine.statusCode st).toNat * 2 ^ 24 + out.toNat :=
  toNat_append_eq_mul_add _ _

/-! ### The obligations -/

/-- Settles O2: each field that `encode` writes is read back, and the three fields make up the whole word. -/
theorem encodeAndDecodeAreInverse : Obligations.EncodeAndDecodeAreInverse := ⟨decode_encode, encode_decode⟩

/-- Settles O1, by evaluation of the six words. -/
theorem specCommandWordsDecode : Obligations.SpecCommandWordsDecode := by
  unfold Obligations.SpecCommandWordsDecode
  decide

/-- Settles O3, by the value of words side by side. -/
theorem wordValuesAreTheirFields : Obligations.WordValuesAreTheirFields :=
  ⟨packCommand_toNat, Machine.packResponse_toNat⟩

end Sys2Proof
end

section
/-! PROOFS. The machine's invariant (43_decode.md R116, R117, 10_state.md R24, 70_reset_and_hazards.md R190): it holds
after reset, every transition leads from it to it, and of an idle core it says everything. -/

namespace Sys2Proof.Machine

/-! ### What the invariant says of the control state -/

section Control

variable {s t : State}

theorem coherent_idleWith (c : Config) (p : Pins) : Coherent (State.idleWith c p) := ⟨rfl, rfl, rfl⟩

theorem resetEvent_eq_idleWith (s : State) : resetEvent s = State.idleWith s.config s.pins := rfl

theorem eq_idleWith_of_fields (hbusy : s.busy = false) (hphase : s.phase = .idle) (hvalid : s.rspValid = false)
    (hwork : s.work = Work.initial) : s = State.idleWith s.config s.pins := by
  cases s
  simp_all [State.idleWith]

/-- The pins are the host's: the invariant does not speak of them. -/
theorem coherent_drive_iff (p : Pins) (s : State) : Coherent (drive p s) ↔ Coherent s := Iff.rfl

theorem coherent_iff_of_respond (hphase : s.phase = .respond) : Coherent s ↔
    s.busy = true ∧ s.rspValid = true ∧ (s.work.status, s.work.out) = answer s.config (inFlight s.work) := by
  simp only [Coherent, hphase]

theorem Decoding.busy_and_silent (h : Decoding s) : s.busy = true ∧ s.rspValid = false := by
  obtain ⟨hbusy, hvalid, _⟩ := h
  exact ⟨hbusy, hvalid⟩

theorem HasSyndrome.decoding (h : HasSyndrome s) : Decoding s := h.1

theorem SearchedRight.hasSyndrome (h : SearchedRight s) : HasSyndrome s := h.1

theorem SearchedRight.lt_weight (h : SearchedRight s) : 3 < weight s.work.s := h.2.1

theorem HasSyndrome2.searchedRight (h : HasSyndrome2 s) : SearchedRight s := h.1

/-- A core that meets the invariant is idle, offers the answer of the command in flight, or is still computing it. -/
theorem Coherent.idle_or_offering_or_computing (h : Coherent s) :
    s = State.idleWith s.config s.pins ∨
    (Offering s ∧ (s.work.status, s.work.out) = answer s.config (inFlight s.work)) ∨
    (s.busy = true ∧ s.rspValid = false) := by
  cases hphase : s.phase <;> simp only [Coherent, hphase] at h
  case idle =>
    obtain ⟨hbusy, hvalid, hwork⟩ := h
    exact .inl (eq_idleWith_of_fields hbusy hphase hvalid hwork)
  case respond =>
    obtain ⟨hbusy, hvalid, hanswer⟩ := h
    exact .inr (.inl ⟨⟨hbusy, hphase, hvalid⟩, hanswer⟩)
  case checkLength => exact .inr (.inr h)
  case encode =>
    obtain ⟨hbusy, hvalid, _⟩ := h
    exact .inr (.inr ⟨hbusy, hvalid⟩)
  case computeSyndrome => exact .inr (.inr h.busy_and_silent)
  case direct | searchRight | uncorrectable | correction => exact .inr (.inr h.1.decoding.busy_and_silent)
  case exactlyOneMatch | multipleMatches | noMatch | computeSyndrome2 =>
    exact .inr (.inr h.1.hasSyndrome.decoding.busy_and_silent)
  case directLeft | searchLeft | exhausted =>
    exact .inr (.inr h.1.searchedRight.hasSyndrome.decoding.busy_and_silent)

/-- With no command in flight, the invariant leaves one state (R24). -/
theorem Coherent.eq_idleWith (h : Coherent s) (hbusy : s.busy = false) : s = State.idleWith s.config s.pins := by
  rcases h.idle_or_offering_or_computing with hidle | ⟨⟨hbusy', _⟩, _⟩ | ⟨hbusy', _⟩
  · exact hidle
  · exact absurd (hbusy.symm.trans hbusy') (by decide)
  · exact absurd (hbusy.symm.trans hbusy') (by decide)

theorem Coherent.rspValid_eq_false (h : Coherent s) (hbusy : s.busy = false) : s.rspValid = false := by
  rw [h.eq_idleWith hbusy]
  rfl

end Control

/-! ### The commands and the searches, seen from the latched fields -/

section Latched

variable {s : State}

theorem wellFormed_inFlight_iff (w : Work) : WellFormed (inFlight w) ↔ w.len = requiredLen w.op := by
  cases hop : w.op <;> simp [inFlight, hop, wellFormed_enc_iff, wellFormed_dec_iff, requiredLen]

@[simp] theorem inFlight_latch (i : Instr) (s : State) : inFlight (latch i s).work = i := by cases i <;> rfl

@[simp] theorem latch_rspValid (i : Instr) (s : State) : (latch i s).rspValid = s.rspValid := by cases i <;> rfl

theorem inFlight_of_enc {w : Work} (hop : w.op = .enc) (hlen : w.len = 12#5) : inFlight w = .enc 12#5 w.payload :=
  inFlight_eq_enc_iff.mpr ⟨hop, hlen, rfl⟩

theorem Decoding.inFlight_eq (h : Decoding s) : inFlight s.work = .dec 24#5 s.work.payload := by
  obtain ⟨_, _, hop, hlen, _⟩ := h
  exact inFlight_eq_dec_iff.mpr ⟨hop, hlen, rfl⟩

/-- The command in flight is answered from the syndrome that has been computed (R118). -/
theorem HasSyndrome.errpat_eq (h : HasSyndrome s) :
    errpat s.config s.work.s = errpat s.config (syndrome s.config.b (receivedOperand s.work.payload)) := by
  obtain ⟨⟨_, _, _, _, hreceived⟩, hs⟩ := h
  rw [hs, hreceived]

theorem HasSyndrome.answer_of_errpat_some (h : HasSyndrome s) {e : Vec 24} (he : errpat s.config s.work.s = some e) :
    answer s.config (inFlight s.work) = (.ok, decPayload (vecXor s.work.received e)) := by
  obtain ⟨_, _, _, _, hreceived⟩ := h.decoding
  rw [h.errpat_eq] at he
  rw [h.decoding.inFlight_eq, answer_dec_of_errpat_some he, hreceived]

theorem HasSyndrome.answer_of_errpat_none (h : HasSyndrome s) (he : errpat s.config s.work.s = none) :
    answer s.config (inFlight s.work) = (.uncorrectable, 0) := by
  rw [h.errpat_eq] at he
  rw [h.decoding.inFlight_eq, answer_dec_of_errpat_none he]

/-- A right search that has found something determines the error vector (R105, R106). -/
theorem SearchedRight.errpat_of_match (h : SearchedRight s) {j : Index} {rest : List Index}
    (hM : s.work.M = j :: rest) :
    errpat s.config s.work.s = some (concat (unitVector (lightest s.work.sj j rest))
      s.work.sj[lightest s.work.sj j rest]) := by
  obtain ⟨_, hheavy, hsj, hmatch⟩ := h
  rw [hmatch, hsj] at hM
  simp only [errpat_right _ _ hheavy j rest hM, hsj, getElem_candidates]

/-- The choice among one match (R105). -/
theorem SearchedRight.errpat_of_oneMatch (h : SearchedRight s) {j : Index} (hM : s.work.M = [j]) :
    errpat s.config s.work.s = some (concat (unitVector j) s.work.sj[j]) := by
  simpa only [lightest] using h.errpat_of_match hM

/-- A right search that has found nothing, in the terms of `errpat`. -/
theorem SearchedRight.matchSet_eq_nil (h : SearchedRight s) (hM : s.work.M = []) :
    matchSet (candidates s.config.b s.work.s) = [] := by
  obtain ⟨_, _, hsj, hmatch⟩ := h
  rw [← hM, hmatch, hsj]

theorem HasSyndrome2.errpat_of_directLeft (h : HasSyndrome2 s) (hlight : s.work.weight2 ≤ 3) :
    errpat s.config s.work.s = some (concat s.work.s2 (zeroVec 12)) := by
  obtain ⟨hsearched, hM, hs2, hweight⟩ := h
  rw [hweight, hs2] at hlight
  rw [errpat_directLeft _ _ hsearched.lt_weight (hsearched.matchSet_eq_nil hM) hlight, hs2]

theorem HasSyndrome2.errpat_of_searchLeft (h : HasSyndrome2 s) (hheavy : 3 < s.work.weight2) {j : Index}
    (hj : firstLeft s.config.b s.work.s2 = some j) :
    errpat s.config s.work.s = some (concat (candidate s.config.b s.work.s2 j) (unitVector j)) := by
  obtain ⟨hsearched, hM, hs2, hweight⟩ := h
  rw [hweight, hs2] at hheavy
  rw [hs2] at hj
  rw [errpat_searchLeft _ _ hsearched.lt_weight (hsearched.matchSet_eq_nil hM) hheavy j hj, hs2]

theorem HasSyndrome2.errpat_of_exhausted (h : HasSyndrome2 s) (hheavy : 3 < s.work.weight2)
    (hnone : ∀ j : Index, 2 < weight (candidate s.config.b s.work.s2 j)) :
    errpat s.config s.work.s = if s.config.compatFallback then some (zeroVec 24) else none := by
  obtain ⟨hsearched, hM, hs2, hweight⟩ := h
  rw [hweight, hs2] at hheavy
  rw [hs2] at hnone
  exact errpat_exhausted _ _ hsearched.lt_weight (hsearched.matchSet_eq_nil hM) hheavy
    ((firstLeft_eq_none_iff _ _).mpr hnone)

end Latched

/-! ### Every transition keeps the invariant -/

/-- From the invariant every row of R117 has its transition, and the next state meets the invariant of its phase. -/
theorem Coherent.advance {s : State} (h : Coherent s) (hbusy : s.busy = true) :
    ∃ t, advance s = .next t ∧ Coherent t := by
  cases hphase : s.phase <;> simp only [Coherent, hphase] at h
  case idle => exact absurd (hbusy.symm.trans h.1) (by decide)
  case checkLength =>
    by_cases hlen : s.work.len = requiredLen s.work.op
    · cases hop : s.work.op <;> rw [hop] at hlen
      · exact ⟨_, advance_checkLength_enc hphase hop hlen, hbusy, h.2, hop, hlen⟩
      · exact ⟨_, advance_checkLength_dec hphase hop hlen, hbusy, h.2, hop, hlen, rfl⟩
    · have hanswer := answer_of_not_wellFormed s.config (mt (wellFormed_inFlight_iff s.work).mp hlen)
      exact ⟨_, advance_checkLength_wrong hphase hlen, hbusy, rfl, hanswer.symm⟩
  case encode =>
    obtain ⟨_, _, hop, hlen⟩ := h
    have hanswer : answer s.config (inFlight s.work)
        = (.ok, encPayload (encodeData s.config.b (dataOperand s.work.payload))) := by
      rw [inFlight_of_enc hop hlen]
      rfl
    exact ⟨_, advance_encode hphase, hbusy, rfl, hanswer.symm⟩
  case computeSyndrome =>
    rcases Nat.lt_or_ge 3 (weight (computeSyndrome s).work.s) with hw | hw
    · exact ⟨_, advance_computeSyndrome_search hphase hw, ⟨h, rfl⟩, hw⟩
    · exact ⟨_, advance_computeSyndrome_direct hphase hw, ⟨h, rfl⟩, hw⟩
  case direct =>
    obtain ⟨hs, hlight⟩ := h
    exact ⟨_, advance_direct hphase, hs, errpat_direct _ _ hlight⟩
  case searchRight =>
    obtain ⟨hs, hheavy⟩ := h
    have hsearched : SearchedRight (searchRight s) := ⟨hs, hheavy, rfl, rfl⟩
    rcases afterSearchRight_cases (searchRight s).work.M with ⟨hM, hnext⟩ | ⟨hM, hnext⟩ | ⟨hM, hnext⟩
    all_goals
      refine ⟨_, advance_searchRight hphase, ?_⟩
      rw [hnext]
      exact ⟨hsearched, hM⟩
  case exactlyOneMatch =>
    obtain ⟨hsearched, hlength⟩ := h
    obtain ⟨j, hM⟩ := List.length_eq_one_iff.mp hlength
    exact ⟨_, advance_exactlyOneMatch hphase j hM, hsearched.hasSyndrome, hsearched.errpat_of_oneMatch hM⟩
  case multipleMatches =>
    obtain ⟨hsearched, hlength⟩ := h
    rcases hM : s.work.M with _ | ⟨j, _ | ⟨k, rest⟩⟩
    · simp [hM] at hlength
    · simp [hM] at hlength
    · exact ⟨_, advance_multipleMatches hphase j k rest hM, hsearched.hasSyndrome, hsearched.errpat_of_match hM⟩
  case noMatch => exact ⟨_, advance_noMatch hphase, h⟩
  case computeSyndrome2 =>
    have hs2 : HasSyndrome2 (computeSyndrome2 s) := ⟨h.1, h.2, rfl, rfl⟩
    rcases Nat.lt_or_ge 3 (computeSyndrome2 s).work.weight2 with hw | hw
    · exact ⟨_, advance_computeSyndrome2_search hphase hw, hs2, hw⟩
    · exact ⟨_, advance_computeSyndrome2_direct hphase hw, hs2, hw⟩
  case directLeft =>
    obtain ⟨hs2, hlight⟩ := h
    exact ⟨_, advance_directLeft hphase, hs2.searchedRight.hasSyndrome, hs2.errpat_of_directLeft hlight⟩
  case searchLeft =>
    obtain ⟨hs2, hheavy⟩ := h
    rcases hj : firstLeft s.config.b s.work.s2 with _ | j
    · exact ⟨_, advance_searchLeft_none hphase hj, hs2, hheavy, (firstLeft_eq_none_iff _ _).mp hj⟩
    · exact ⟨_, advance_searchLeft_match hphase j hj, hs2.searchedRight.hasSyndrome,
        hs2.errpat_of_searchLeft hheavy hj⟩
  case exhausted =>
    obtain ⟨hs2, hheavy, hnone⟩ := h
    have he := hs2.errpat_of_exhausted hheavy hnone
    cases hc : s.config.compatFallback <;> rw [hc] at he
    · exact ⟨_, advance_exhausted_report hphase hc, hs2.searchedRight.hasSyndrome, hc, he⟩
    · exact ⟨_, advance_exhausted_compat hphase hc, hs2.searchedRight.hasSyndrome, he⟩
  case uncorrectable =>
    obtain ⟨hs, _, he⟩ := h
    exact ⟨_, advance_uncorrectable hphase, hbusy, rfl, (hs.answer_of_errpat_none he).symm⟩
  case correction =>
    obtain ⟨hs, he⟩ := h
    exact ⟨_, advance_correction hphase, hbusy, rfl, (hs.answer_of_errpat_some he).symm⟩
  case respond =>
    have ⟨_, hvalid, _⟩ := h
    cases hready : s.pins.rspReady
    · exact ⟨s, advance_respond_hold hphase hvalid hready, (coherent_iff_of_respond hphase).mpr h⟩
    · exact ⟨_, advance_respond_give hphase hvalid hready, coherent_idleWith _ _⟩

/-! ### Every edge of both accounts keeps the invariant -/

section Edges

variable {s t : State}

theorem coherent_latch (hvalid : s.rspValid = false) (i : Instr) : Coherent (latch i s) := by
  simp only [Coherent, latch_phase]
  exact ⟨latch_busy i s, (latch_rspValid i s).trans hvalid⟩

/-- A command as one step ends in the invariant, from every state (R46). -/
theorem exec_coherent (i : Instr) (s : State) : ∃ t, exec i s = .next t ∧ Coherent t := by
  obtain ⟨t, ht, ⟨hbusy, hphase, hvalid⟩, hfields, hanswer⟩ := exec_answers i s
  refine ⟨t, ht, (coherent_iff_of_respond hphase).mpr ⟨hbusy, hvalid, ?_⟩⟩
  rw [hanswer, (exec_config_pins ht).1, hfields]

theorem step_of_rst (hrst : s.pins.rst = true) : step s = .next (State.idleWith s.config s.pins) := by
  simpa [hrst, resetEvent_eq_idleWith] using step_cases s

theorem cycle_of_rst (hrst : s.pins.rst = true) : cycle s = .next (State.idleWith s.config s.pins) := by
  simpa [hrst, resetEvent_eq_idleWith] using cycle_cases s

theorem Coherent.step (h : Coherent s) : ∃ t, step s = .next t ∧ Coherent t := by
  rcases step_cases s with ⟨_, he⟩ | ⟨_, hbusy, he⟩ | ⟨_, _, _, he⟩ | ⟨_, _, _, he⟩ <;> rw [he]
  case inl => exact ⟨_, rfl, coherent_idleWith _ _⟩
  case inr.inl => exact h.advance hbusy
  case inr.inr.inl => exact exec_coherent _ s
  case inr.inr.inr => exact ⟨s, rfl, h⟩

theorem Coherent.cycle (h : Coherent s) : ∃ t, cycle s = .next t ∧ Coherent t := by
  rcases cycle_cases s with ⟨_, he⟩ | ⟨_, hbusy, he⟩ | ⟨_, hbusy, _, he⟩ | ⟨_, _, _, he⟩ <;> rw [he]
  case inl => exact ⟨_, rfl, coherent_idleWith _ _⟩
  case inr.inl => exact h.advance hbusy
  case inr.inr.inl => exact ⟨_, rfl, coherent_latch (h.rspValid_eq_false hbusy) _⟩
  case inr.inr.inr => exact ⟨s, rfl, h⟩

theorem Coherent.of_step (h : Coherent s) (hstep : Machine.step s = .next t) : Coherent t := by
  obtain ⟨t', ht', hcoherent⟩ := h.step
  cases ht'.symm.trans hstep
  exact hcoherent

theorem Coherent.of_cycle (h : Coherent s) (hcycle : Machine.cycle s = .next t) : Coherent t := by
  obtain ⟨t', ht', hcoherent⟩ := h.cycle
  cases ht'.symm.trans hcycle
  exact hcoherent

end Edges

/-! ### The obligations -/

/-- Settles O52: a reset, a transition, a whole command or waiting, each leads from the invariant to it. -/
theorem stepKeepsTheInvariant : Obligations.StepKeepsTheInvariant := fun _ _ => Coherent.of_step

/-- Settles O53: of the accept it needs that an idle core offers no response. -/
theorem cycleKeepsTheInvariant : Obligations.CycleKeepsTheInvariant := fun _ _ => Coherent.of_cycle

/-- Settles O54: the invariant excludes the states in which `advance` faults, and reset ends in the idle state. -/
theorem machineNeverStops : Obligations.MachineNeverStops := by
  refine ⟨fun s h => ⟨?_, ?_⟩, fun s hrst => ⟨_, step_of_rst hrst, coherent_idleWith _ _⟩⟩
  · obtain ⟨t, ht, _⟩ := h.step
    exact ⟨t, ht⟩
  · obtain ⟨t, ht, _⟩ := h.cycle
    exact ⟨t, ht⟩

/-- Settles O58: the next state meets the invariant, which leaves one idle state for its constants and pins. -/
theorem idleStateIsOne : Obligations.IdleStateIsOne := by
  intro s t h hstep hbusy
  obtain ⟨hconfig, hpins⟩ := step_config_pins hstep
  rw [← hconfig, ← hpins]
  exact (h.of_step hstep).eq_idleWith hbusy

/-- Settles O51: the state after reset is the idle state of its parameters. -/
theorem invariantAtReset : Obligations.InvariantAtReset := ⟨coherent_idleWith _ _, coherent_idleWith⟩

/-- Settles O50, by the fields of the idle state. -/
theorem stateAfterReset : Obligations.StateAfterReset := ⟨rfl, rfl, rfl, rfl, rfl⟩

/-- Settles O45: nothing but the decoded command is left of the step, and decoding undoes encoding. -/
theorem stepRunsTheDecodedCommand : Obligations.StepRunsTheDecodedCommand := by
  intro s hready hvalid
  have hstep := step_of_cmdReady hready hvalid
  refine ⟨hstep, by simp [acceptedAt, hready, hvalid], fun i hi => ?_⟩
  rw [hstep, ← hi, decode_encode]

/-- Settles O47: at `Respond` the transition is to hold or to give, by `rsp_ready`. -/
theorem responseIsHeldUntilTaken : Obligations.ResponseIsHeldUntilTaken := by
  intro s ⟨hbusy, hphase, hvalid⟩ hrst
  have hstep : step s = advance s := by simpa [hrst, hbusy] using step_cases s
  refine ⟨by simp [acceptedAt, State.cmdReady, hbusy], fun hready => ⟨?_, by simp [givenAt, hready]⟩, fun hready => ?_⟩
  · rw [hstep, advance_respond_hold hphase hvalid hready]
  · refine ⟨by simp [givenAt, hbusy, hvalid, hready, hrst], giveResponse s, ?_, rfl, rfl, rfl, ?_, rfl⟩
    · rw [hstep, advance_respond_give hphase hvalid hready]
    · simp [State.cmdReady, hrst]

/-- Settles O49: under `rst` both handshakes are closed, and the step ends in the idle state. -/
theorem resetDropsTheCommandInFlight : Obligations.ResetDropsTheCommandInFlight := by
  intro s hrst
  have hready : s.cmdReady = false := by simp [State.cmdReady, hrst]
  refine ⟨hready, by simp [acceptedAt, hready], by simp [givenAt, hrst], _, step_of_rst hrst, rfl, rfl, rfl, rfl,
    fun p hp => ?_⟩
  simp [State.cmdReady, State.idleWith, hp]

end Sys2Proof.Machine
end

section
/-! PROOFS. The transition table against the commands as one step (43_decode.md R116, R117): started by the accept,
the transitions of a command end where `exec` ends, after at most eight of them. -/

namespace Sys2Proof.Machine

/-- The accept of a well-formed `DEC`, the length test and the syndrome: two transitions. -/
theorem advanceTimes_latch_dec (payload : Payload) (s : State) (n : Nat) :
    advanceTimes (n + 2) (latch (.dec 24#5 payload) s) = advanceTimes n
      (goto (if weight (withSyndrome payload s).work.s ≤ 3 then .direct else .searchRight)
        (withSyndrome payload s)) := by
  rw [advanceTimes_succ (advance_checkLength_dec rfl rfl rfl), advanceTimes_succ (advance_computeSyndrome rfl)]
  rfl

section Paths

variable {payload : Payload} {s : State}

/-- Past `Direct`, the right search follows. -/
theorem advanceTimes_latch_dec_searched (h : 3 < weight (withSyndrome payload s).work.s) (n : Nat) :
    advanceTimes (n + 3) (latch (.dec 24#5 payload) s) = advanceTimes n
      (goto (afterSearchRight (withSearch payload s).work.M) (withSearch payload s)) := by
  rw [advanceTimes_latch_dec payload s (n + 1), if_neg (Nat.not_le.mpr h), advanceTimes_succ (advance_searchRight rfl)]
  rfl

/-- Past a right search that found nothing, the second syndrome follows. -/
theorem advanceTimes_latch_dec_syndrome2 (h : 3 < weight (withSyndrome payload s).work.s)
    (hM : (withSearch payload s).work.M = []) (n : Nat) :
    advanceTimes (n + 5) (latch (.dec 24#5 payload) s) = advanceTimes n
      (goto (if (withSyndrome2 payload s).work.weight2 ≤ 3 then .directLeft else .searchLeft)
        (withSyndrome2 payload s)) := by
  rw [advanceTimes_latch_dec_searched h (n + 2), hM, afterSearchRight, advanceTimes_succ (advance_noMatch rfl),
    advanceTimes_succ (advance_computeSyndrome2 rfl)]
  rfl

/-- Past a left search that found nothing, the machine is exhausted. -/
theorem advanceTimes_latch_dec_exhausted (h : 3 < weight (withSyndrome payload s).work.s)
    (hM : (withSearch payload s).work.M = []) (h2 : 3 < (withSyndrome2 payload s).work.weight2)
    (hn : firstLeft s.config.b (withSyndrome2 payload s).work.s2 = none) (n : Nat) :
    advanceTimes (n + 6) (latch (.dec 24#5 payload) s) = advanceTimes n
      (goto .exhausted (searchLeftNone (withSyndrome2 payload s))) := by
  rw [advanceTimes_latch_dec_syndrome2 h hM (n + 1), if_neg (Nat.not_le.mpr h2),
    advanceTimes_succ (advance_searchLeft_none (s := goto .searchLeft (withSyndrome2 payload s)) rfl hn)]
  rfl

/-- `Correction` is the last transition of a path that ends in `OK`. -/
theorem advanceTimes_correction {s : State} (hphase : s.phase = .correction) :
    advanceTimes 1 s = .next (correction s) := advanceTimes_succ (advance_correction hphase) 0

/-- The path of each branch of `DEC` ends in that branch's end, after at most eight transitions. -/
theorem DecEnd.advanceTimes_eq {t : State} (hend : DecEnd payload s t) :
    ∃ n ≤ 8, advanceTimes n (latch (.dec 24#5 payload) s) = .next t := by
  cases hend with
  | direct h =>
    refine ⟨4, by decide, ?_⟩
    rw [advanceTimes_latch_dec, if_pos h, advanceTimes_succ (advance_direct rfl), advanceTimes_correction rfl]
    rfl
  | exactlyOneMatch h j hM =>
    refine ⟨5, by decide, ?_⟩
    have hrow := advance_exactlyOneMatch (s := goto .exactlyOneMatch (withSearch payload s)) rfl j hM
    rw [advanceTimes_latch_dec_searched h, hM, afterSearchRight, advanceTimes_succ hrow, advanceTimes_correction rfl]
    rfl
  | multipleMatches h j k rest hM =>
    refine ⟨5, by decide, ?_⟩
    have hrow := advance_multipleMatches (s := goto .multipleMatches (withSearch payload s)) rfl j k rest hM
    rw [advanceTimes_latch_dec_searched h, hM, afterSearchRight, advanceTimes_succ hrow, advanceTimes_correction rfl]
    rfl
  | directLeft h hM h2 =>
    refine ⟨7, by decide, ?_⟩
    rw [advanceTimes_latch_dec_syndrome2 h hM, if_pos h2, advanceTimes_succ (advance_directLeft rfl),
      advanceTimes_correction rfl]
    rfl
  | searchLeft h hM h2 j hj =>
    refine ⟨7, by decide, ?_⟩
    have hrow := advance_searchLeft_match (s := goto .searchLeft (withSyndrome2 payload s)) rfl j hj
    rw [advanceTimes_latch_dec_syndrome2 h hM, if_neg (Nat.not_le.mpr h2), advanceTimes_succ hrow,
      advanceTimes_correction rfl]
    rfl
  | fallback h hM h2 hn hc =>
    refine ⟨8, by decide, ?_⟩
    have hrow := advance_exhausted_compat (s := goto .exhausted (searchLeftNone (withSyndrome2 payload s))) rfl hc
    rw [advanceTimes_latch_dec_exhausted h hM h2 hn, advanceTimes_succ hrow, advanceTimes_correction rfl]
    rfl
  | uncorrectable h hM h2 hn hc =>
    refine ⟨8, by decide, ?_⟩
    have hrow := advance_exhausted_report (s := goto .exhausted (searchLeftNone (withSyndrome2 payload s))) rfl hc
    rw [advanceTimes_latch_dec_exhausted h hM h2 hn, advanceTimes_succ hrow,
      advanceTimes_succ (advance_uncorrectable rfl)]
    rfl

end Paths

/-- Settles O56: one transition refuses a wrong length, two perform `ENC`, and `DEC` takes the path of its branch. -/
theorem transitionTableReachesTheResponse : Obligations.TransitionTableReachesTheResponse := by
  intro i s
  cases i with
  | enc len payload =>
    rw [exec_enc]
    by_cases hlen : len = 12#5
    · subst hlen
      refine ⟨2, by decide, ?_⟩
      rw [execEnc_wellFormed, advanceTimes_succ (advance_checkLength_enc rfl rfl rfl),
        advanceTimes_succ (advance_encode rfl)]
      rfl
    · refine ⟨1, by decide, ?_⟩
      rw [execEnc_wrongLength len payload s hlen, advanceTimes_succ (advance_checkLength_wrong rfl hlen)]
      rfl
  | dec len payload =>
    rw [exec_dec]
    by_cases hlen : len = 24#5
    · subst hlen
      obtain ⟨t, hend⟩ := exists_decEnd payload s
      rw [hend.execDec_eq]
      exact hend.advanceTimes_eq
    · refine ⟨1, by decide, ?_⟩
      rw [execDec_wrongLength payload s len hlen, advanceTimes_succ (advance_checkLength_wrong rfl hlen)]
      rfl

end Sys2Proof.Machine
end

section
/-! PROOFS. Runs of the ports (30_encoding.md R46, 70_reset_and_hazards.md R190, R200): what one edge accepts and gives
balances with what the core owes before and after it, and so it does over a run. -/

namespace Sys2Proof.Machine

/-! ### What the core owes -/

section Owed

variable {s t : State}

theorem owed_of_not_busy (hbusy : s.busy = false) : owed s = [] := by simp [owed, hbusy]

theorem owed_of_inFlight {i : Instr} (hbusy : s.busy = true) (hi : inFlight s.work = i) :
    owed s = [packResponse (answer s.config i).1 (answer s.config i).2] := by simp [owed, hbusy, hi]

theorem owed_congr (hconfig : t.config = s.config) (hbusy : t.busy = s.busy)
    (hfields : inFlight t.work = inFlight s.work) : owed t = owed s := by simp [owed, hconfig, hbusy, hfields]

theorem acceptedAt_of_busy (hbusy : s.busy = true) : acceptedAt s = [] := by simp [acceptedAt, State.cmdReady, hbusy]

theorem acceptedAt_of_rst (hrst : s.pins.rst = true) : acceptedAt s = [] := by
  simp [acceptedAt, State.cmdReady, hrst]

theorem givenAt_of_rst (hrst : s.pins.rst = true) : givenAt s = [] := by simp [givenAt, hrst]

theorem givenAt_of_not_busy (hbusy : s.busy = false) : givenAt s = [] := by simp [givenAt, hbusy]

end Owed

/-! ### One edge -/

/-- At an edge from s to t, the responses owed and newly accepted are those given and still owed, in order. -/
def Balanced (s t : State) : Prop :=
  owed s ++ (acceptedAt s).map (response s.config) = givenAt s ++ owed t

/-- A command accepted is owed its response (R46). -/
theorem balanced_of_accept {s t : State} (hrst : s.pins.rst = false) (hbusy : s.busy = false)
    (hvalid : s.pins.cmdValid = true) (hconfig : t.config = s.config) (hbusy' : t.busy = true)
    (hfields : inFlight t.work = decode s.pins.cmd) : Balanced s t := by
  have haccepted : acceptedAt s = [s.pins.cmd] := by simp [acceptedAt, State.cmdReady, hrst, hbusy, hvalid]
  rw [Balanced, owed_of_not_busy hbusy, givenAt_of_not_busy hbusy, haccepted, owed_of_inFlight hbusy' hfields,
    hconfig]
  rfl

theorem balanced_of_wait {s : State} (hbusy : s.busy = false) (hvalid : s.pins.cmdValid = false) : Balanced s s := by
  rw [Balanced, owed_of_not_busy hbusy, givenAt_of_not_busy hbusy, acceptedAt_of_not_cmdValid hvalid]
  rfl

/-- A transition gives the response it owes, when one is offered and taken, or goes on owing it (R46). -/
theorem balanced_of_advance {s t : State} (h : Coherent s) (hrst : s.pins.rst = false) (hbusy : s.busy = true)
    (hadvance : advance s = .next t) : Balanced s t := by
  rw [Balanced, acceptedAt_of_busy hbusy, List.map_nil, List.append_nil]
  obtain ⟨hconfig, _, ⟨hphase, hvalid, hready, rfl⟩ | ⟨hbusy', hfields⟩⟩ := advance_keeps hadvance
  · obtain ⟨_, _, hanswer⟩ := (coherent_iff_of_respond hphase).mp h
    have hgiven : givenAt s = [s.rsp] := by simp [givenAt, hbusy, hvalid, hready, hrst]
    rw [owed_of_inFlight hbusy rfl, hgiven, rsp_of_answer hanswer, owed_of_not_busy (giveResponse_busy s)]
    rfl
  · have hgiven : givenAt s = [] := by
      rcases h.idle_or_offering_or_computing with hidle | ⟨⟨_, hphase, hvalid⟩, _⟩ | ⟨_, hvalid⟩
      · rw [hidle] at hbusy
        cases hbusy
      · cases hready : s.pins.rspReady
        · simp [givenAt, hready]
        · cases (advance_respond_give hphase hvalid hready).symm.trans hadvance
          exact absurd (hbusy.symm.trans hbusy'.symm) (by simp)
      · simp [givenAt, hvalid]
    rw [hgiven, owed_congr hconfig hbusy' hfields, List.nil_append]

/-- What both accounts of the machine do at one edge: they keep the invariant and the constants, balance out of reset,
and drop what is owed under reset. -/
def KeepsAccount (edge : State → Host.Outcome State Fault Refusal) : Prop :=
  ∀ s : State, Coherent s → ∃ t, edge s = .next t ∧ Coherent t ∧ t.config = s.config ∧
    (s.pins.rst = false → Balanced s t) ∧ (s.pins.rst = true → owed t = [])

theorem step_balanced {s t : State} (h : Coherent s) (hrst : s.pins.rst = false) (hstep : step s = .next t) :
    Balanced s t := by
  rcases step_cases s with ⟨hrst', _⟩ | ⟨_, hbusy, he⟩ | ⟨_, hbusy, hvalid, he⟩ | ⟨_, hbusy, hvalid, he⟩
  case inl => exact absurd (hrst.symm.trans hrst') (by decide)
  case inr.inl => exact balanced_of_advance h hrst hbusy (he.symm.trans hstep)
  case inr.inr.inl =>
    obtain ⟨t', ht', ⟨hbusy', _⟩, hfields, _⟩ := exec_answers (decode s.pins.cmd) s
    cases (he.trans ht').symm.trans hstep
    exact balanced_of_accept hrst hbusy hvalid (step_config_pins hstep).1 hbusy' hfields
  case inr.inr.inr =>
    cases he.symm.trans hstep
    exact balanced_of_wait hbusy hvalid

theorem cycle_balanced {s t : State} (h : Coherent s) (hrst : s.pins.rst = false) (hcycle : cycle s = .next t) :
    Balanced s t := by
  rcases cycle_cases s with ⟨hrst', _⟩ | ⟨_, hbusy, he⟩ | ⟨_, hbusy, hvalid, he⟩ | ⟨_, hbusy, hvalid, he⟩
  case inl => exact absurd (hrst.symm.trans hrst') (by decide)
  case inr.inl => exact balanced_of_advance h hrst hbusy (he.symm.trans hcycle)
  case inr.inr.inl =>
    cases he.symm.trans hcycle
    exact balanced_of_accept hrst hbusy hvalid (latch_config _ s) (latch_busy _ s) (inFlight_latch _ s)
  case inr.inr.inr =>
    cases he.symm.trans hcycle
    exact balanced_of_wait hbusy hvalid

theorem keepsAccount_step : KeepsAccount step := by
  intro s h
  obtain ⟨t, ht, hcoherent⟩ := h.step
  refine ⟨t, ht, hcoherent, (step_config_pins ht).1, fun hrst => step_balanced h hrst ht, fun hrst => ?_⟩
  cases (step_of_rst hrst).symm.trans ht
  rfl

theorem keepsAccount_cycle : KeepsAccount cycle := by
  intro s h
  obtain ⟨t, ht, hcoherent⟩ := h.cycle
  refine ⟨t, ht, hcoherent, (cycle_config_pins ht).1, fun hrst => cycle_balanced h hrst ht, fun hrst => ?_⟩
  cases (cycle_of_rst hrst).symm.trans ht
  rfl

theorem keepsAccount_of_account {edge : State → Host.Outcome State Fault Refusal} (h : edge = step ∨ edge = cycle) :
    KeepsAccount edge := by
  rcases h with rfl | rfl
  · exact keepsAccount_step
  · exact keepsAccount_cycle

/-! ### A run -/

section Runs

variable {edge : State → Host.Outcome State Fault Refusal}

/-- The run of one more edge. -/
theorem portRun_cons {p : Pins} {ps : List Pins} {s t : State} (ht : edge (drive p s) = .next t) :
    portRun edge (p :: ps) s =
      { accepted := acceptedAt (drive p s) ++ (portRun edge ps t).accepted
        given := givenAt (drive p s) ++ (portRun edge ps t).given
        final := (portRun edge ps t).final } := by
  simp only [portRun, ht]

/-- Without reset the account of every edge adds up over the run. -/
theorem KeepsAccount.portRun_balanced (hedge : KeepsAccount edge) (ps : List Pins) (hps : ∀ p ∈ ps, p.rst = false)
    (s : State) (h : Coherent s) : ∃ s', (portRun edge ps s).final = .next s' ∧
      owed s ++ (portRun edge ps s).accepted.map (response s.config) = (portRun edge ps s).given ++ owed s' := by
  induction ps generalizing s with
  | nil => exact ⟨s, rfl, List.append_nil _⟩
  | cons p ps ih =>
    obtain ⟨t, ht, hcoherent, hconfig, hbalanced, _⟩ := hedge (drive p s) ((coherent_drive_iff p s).mpr h)
    obtain ⟨hp, hps⟩ := List.forall_mem_cons.mp hps
    obtain ⟨s', hfinal, hrun⟩ := ih hps t hcoherent
    rw [portRun_cons ht]
    refine ⟨s', hfinal, ?_⟩
    rw [hconfig, drive_config] at hrun
    have haccount : owed s ++ (acceptedAt (drive p s)).map (response s.config) = givenAt (drive p s) ++ owed t :=
      hbalanced hp
    rw [List.map_append, ← List.append_assoc, haccount, List.append_assoc, hrun, List.append_assoc]

/-- With resets, an edge can only drop what is owed. -/
theorem KeepsAccount.portRun_sublist (hedge : KeepsAccount edge) (ps : List Pins) (s : State) (h : Coherent s) :
    ∃ s', (portRun edge ps s).final = .next s' ∧ (portRun edge ps s).given.Sublist
      (owed s ++ (portRun edge ps s).accepted.map (response s.config)) := by
  induction ps generalizing s with
  | nil => exact ⟨s, rfl, List.nil_sublist _⟩
  | cons p ps ih =>
    obtain ⟨t, ht, hcoherent, hconfig, hbalanced, hdropped⟩ := hedge (drive p s) ((coherent_drive_iff p s).mpr h)
    obtain ⟨s', hfinal, hrun⟩ := ih t hcoherent
    rw [portRun_cons ht]
    refine ⟨s', hfinal, ?_⟩
    rw [hconfig, drive_config] at hrun
    cases hp : p.rst
    case false =>
      have haccount : owed s ++ (acceptedAt (drive p s)).map (response s.config) = givenAt (drive p s) ++ owed t :=
        hbalanced hp
      rw [List.map_append, ← List.append_assoc, haccount, List.append_assoc]
      exact hrun.append_left _
    case true =>
      rw [hdropped hp, List.nil_append] at hrun
      rw [givenAt_of_rst hp, acceptedAt_of_rst hp, List.nil_append, List.nil_append]
      exact hrun.trans (List.sublist_append_right _ _)

end Runs

/-! ### The obligations -/

/-- Settles O59: the idle state owes nothing, so the account of the run is all of the accepted commands. -/
theorem portRunAnswersInOrder : Obligations.PortRunAnswersInOrder := fun _ c p0 ps hedge hps =>
  (keepsAccount_of_account hedge).portRun_balanced ps hps _ (coherent_idleWith c p0)

/-- Settles O60, by the same account with resets allowed. -/
theorem portRunWithResetsOnlyLosesResponses : Obligations.PortRunWithResetsOnlyLosesResponses :=
  fun _ c p0 ps hedge => (keepsAccount_of_account hedge).portRun_sublist ps _ (coherent_idleWith c p0)

end Sys2Proof.Machine
end

section
/-! PROOFS. The corner cases of the algebra (40_gf2_algebra.md sections 2 and 3), its sizes in the core (section 5) and
the order of bits on the bus (00_scope.md R8). -/

namespace Sys2Proof.Machine

section Corners

variable {n m q : Nat}

/-- A zero row of `A` makes a zero row of `A · C` (R71). -/
theorem row_matMul_of_row_eq_zero {A : Mat n m} (C : Mat m q) {i : Fin n} (h : row i A = zeroVec m) :
    row i (matMul A C) = zeroVec q := by
  rw [row_matMul, h, vecMul_zero]

/-- Two matrices with the same rows are equal. -/
theorem mat_ext_row {A C : Mat n m} (h : ∀ i, row i A = row i C) : A = C :=
  mat_ext fun i k => by rw [← elem_row, h, elem_row]

theorem identity_matMul (E : Mat 12 q) : matMul identity E = E :=
  mat_ext_row fun i => by rw [row_matMul, row_identity, vecMul_unitVector]

theorem matMul_identity (F : Mat q 12) : matMul F identity = F :=
  mat_ext_row fun i => by rw [row_matMul, vecMul_identity]

theorem transpose_transpose (A : Mat n m) : transpose (transpose A) = A :=
  mat_ext fun i k => by rw [entry_transpose, entry_transpose]

theorem column_eq_row_transpose (A : Mat n m) (k : Fin m) : column k A = row k (transpose A) :=
  vec_ext fun i => by rw [elem_column, elem_row, entry_transpose]

theorem column_eq_row_of_symmetric {S : Mat n n} (h : IsSymmetric S) (k : Fin n) : column k S = row k S := by
  rw [column_eq_row_transpose, h]

/-- The rows that a vector selects are added one after another (R71). -/
theorem vecMul_eq_selected_rows (v : Vec m) (C : Mat m q) :
    vecMul v C = (List.finRange m).foldr (fun t acc => if elem v t then vecXor (row t C) acc else acc) (zeroVec q) := by
  rw [vecMul_eq_rows]
  congr 1
  funext t acc
  cases elem v t <;> simp

theorem weight_of_forall_elem {a : Vec n} (h : ∀ i, elem a i = true) : weight a = n := by
  rw [weight, List.countP_eq_length.mpr fun i _ => h i, List.length_finRange]

/-- `weight([a | b]) = weight(a) + weight(b)` (R76), whatever the two lengths. -/
theorem weight_concat_eq_add (a : Vec n) (b : Vec m) : weight (concat a b) = weight a + weight b := by
  simp only [weight_eq_card, Finset.card_filter, Fin.sum_univ_add, elem_concat_left, elem_concat_right]

/-- The weight of `a XOR b` is the number of places in which a and b differ (R76). -/
theorem weight_vecXor_eq_card (a b : Vec n) :
    weight (vecXor a b) = (Finset.univ.filter fun i => elem a i ≠ elem b i).card := by
  simp only [weight_eq_card, elem_vecXor, bne_iff_ne]

/-- A codeword's bus value is `data * 4096 + parity` (R8). -/
theorem busOf_concat_toNat (d p : Vec 12) :
    (busOf (concat d p)).toNat = (busOf d).toNat * 4096 + (busOf p).toNat := toNat_append_eq_mul_add d p

end Corners

/-! ### The obligations -/

/-- Settles O10, corner case by corner case. -/
theorem algebraCornerCases : Obligations.AlgebraCornerCases := fun _ _ _ A C E S v w a b c =>
  ⟨fun _ h => row_matMul_of_row_eq_zero C h, vecMul_vecXor v w C, vecMul_eq_selected_rows v C, identity_matMul E,
    matMul_identity, fun j => vecMul_unitVector j E, transpose_transpose A, symmetric_iff S,
    column_eq_row_transpose A, column_eq_row_of_symmetric, vecXor_self a, vecXor_zero a, vecXor_comm a b,
    vecXor_assoc a b c, weight_zeroVec _, weight_of_forall_elem, weight_concat_eq_add a v, weight_vecXor_eq_card a b⟩

/-- Settles O11: a vector is its bus value, read from the most significant bit. -/
theorem elementsLieOnTheBusFirstHighest : Obligations.ElementsLieOnTheBusFirstHighest :=
  ⟨fun _ v i => (elem_eq_getLsbD v i).symm, fun _ w i => elem_eq_getLsbD w i, busOf_concat_toNat⟩

/-- Settles O13: at fitting operands each checked primitive is the fixed-size one that the core applies. -/
theorem coreSizesRaiseNothing : Obligations.CoreSizesRaiseNothing := fun b =>
  ⟨hconcatChecked_fit identity b, ⟨_, hconcatChecked_fit b identity, rfl⟩, fun d => vecMulChecked_fit d (generator b),
    fun r => vecMulChecked_fit r (parityCheckT b), fun s => vecMulChecked_fit s b,
    matMulChecked_fit (generator b) (parityCheckT b), fun s j => vecXorChecked_fit s (column j b), vecXorChecked_fit⟩

end Sys2Proof.Machine
end

section
/-! PROOFS. The code (41_code_constants.md sections 3 and 4, 42_encode.md, 45_properties.md R147 and R150 item 1): its
words are those of syndrome zero, and under (P3) its words are far apart. -/

namespace Sys2Proof.Machine

section Products

variable (b : Mat 12 12)

/-- `r · Ht` for a word given by its halves (R94). -/
theorem syndrome_concat (r1 r2 : Vec 12) :
    syndrome b (concat r1 r2) = vecXor (vecMul r1 (transpose b)) r2 := by
  rw [syndrome_eq, firstHalf_concat, secondHalf_concat]

/-- `(G · Ht)[i][k]`: row i of `G` is `[unit_vector(i) | row_i(B)]`, and its syndrome is the sum of row i of the
transpose and of row i (R92). -/
theorem entry_generator_parityCheckT (i k : Index) :
    entry (matMul (generator b) (parityCheckT b)) i k = xor (entry b k i) (entry b i k) := by
  have hrow : row i (matMul (generator b) (parityCheckT b)) = vecXor (row i (transpose b)) (row i b) := by
    rw [row_matMul, row_generator, ← vecMul_unitVector i (transpose b)]
    exact syndrome_concat b _ _
  rw [← elem_row, hrow, elem_vecXor, elem_row, elem_row, entry_transpose]

theorem entries_eq_false_iff_symmetric :
    (∀ i k, entry (matMul (generator b) (parityCheckT b)) i k = false) ↔ IsSymmetric b := by
  simp only [entry_generator_parityCheckT, symmetric_iff, bne_eq_false_iff_eq]
  exact forall_comm

theorem staticCheck_iff_symmetric : staticCheck b = true ↔ IsSymmetric b := by
  rw [staticCheck_eq_true_iff, ← entries_eq_false_iff_symmetric, invariantProduct, mat_ext_iff]
  simp only [entry_zeroMat]

/-! ### Encoding -/

theorem encodeData_vecXor (d e : Vec 12) :
    encodeData b (vecXor d e) = vecXor (encodeData b d) (encodeData b e) := vecMul_vecXor d e _

theorem encodeData_zeroVec : encodeData b (zeroVec 12) = zeroVec 24 := vecMul_zero _

theorem encodeData_unitVector (i : Index) : encodeData b (unitVector i) = concat (unitVector i) (row i b) := by
  rw [encodeData_eq, vecMul_unitVector]

/-- The data word is the first half of its codeword, so it is determined by it (R95). -/
theorem encodeData_injective {d e : Vec 12} (h : encodeData b d = encodeData b e) : d = e := by
  rw [← firstHalf_encodeData b d, h, firstHalf_encodeData]

theorem weight_encodeData (d : Vec 12) : weight (encodeData b d) = weight d + weight (vecMul d b) := by
  rw [encodeData_eq, weight_concat]

end Products

/-! ### Words of syndrome zero -/

section Codewords

variable {b : Mat 12 12}

/-- With `B` symmetric, a word of syndrome zero has the parity of its first half (R97). -/
theorem eq_encodeData_of_syndrome_zero (h : IsSymmetric b) {c : Vec 24} (hc : syndrome b c = zeroVec 12) :
    c = encodeData b (firstHalf c) := by
  rw [syndrome_of_symmetric h, vecXor_eq_zero_iff] at hc
  rw [encodeData_eq, hc, concat_halves]

/-- (P3) is the weight of the non-zero codewords (R147). -/
theorem P3_iff_weight_encodeData : P3 b ↔ ∀ d : Vec 12, d ≠ zeroVec 12 → 8 ≤ weight (encodeData b d) := by
  simp only [P3, weight_encodeData]

/-- Two words of one syndrome differ in a codeword, and under (P3) the only codeword of weight less than 8 is zero
(R150 item 1). -/
theorem eq_of_syndrome_eq (h1 : P1 b) (h3 : P3 b) {x y : Vec 24} (hx : weight x ≤ 3) (hy : weight y ≤ 4)
    (h : syndrome b x = syndrome b y) : x = y := by
  have hzero : syndrome b (vecXor x y) = zeroVec 12 := by rw [syndrome_vecXor, h, vecXor_self]
  have hcode := eq_encodeData_of_syndrome_zero h1 hzero
  have hlight := weight_vecXor_le x y
  have hd : firstHalf (vecXor x y) = zeroVec 12 := by
    by_contra hne
    have hheavy := P3_iff_weight_encodeData.mp h3 _ hne
    rw [← hcode] at hheavy
    omega
  rw [hd, encodeData_zeroVec, vecXor_eq_zero_iff] at hcode
  exact hcode

end Codewords

/-! ### The obligations -/

/-- Settles O15, by the columns of `G` and of `Ht`. -/
theorem productsHalfByHalf : Obligations.ProductsHalfByHalf := fun b =>
  ⟨encodeData_eq b, fun d k => elem_vecMul d b k, syndrome_concat b, elem_syndrome b, fun h r1 r2 => by
    have hprod := syndrome_concat b r1 r2
    rwa [show transpose b = b from h] at hprod⟩

/-- Settles O16, by the entries of `G · Ht`. -/
theorem productOfTheConstantsIsZeroIffSymmetric : Obligations.ProductOfTheConstantsIsZeroIffSymmetric := fun b =>
  ⟨entry_generator_parityCheckT b, entries_eq_false_iff_symmetric b, staticCheck_iff_symmetric b,
    fun h => syndrome_encodeData ((staticCheck_iff_symmetric b).mp h)⟩

/-- Settles O19, by the linearity of the product and the first half of a codeword. -/
theorem encodingIsLinearAndInjective : Obligations.EncodingIsLinearAndInjective := fun b =>
  ⟨encodeData_vecXor b, encodeData_zeroVec b, encodeData_unitVector b, fun _ _ => encodeData_injective b⟩

/-- Settles O20: syndrome zero says that the second half is the parity of the first. -/
theorem codewordsAreTheWordsOfSyndromeZero : Obligations.CodewordsAreTheWordsOfSyndromeZero := fun _ h =>
  ⟨syndrome_encodeData h, fun _ => eq_encodeData_of_syndrome_zero h⟩

/-- Settles O42: by linearity the difference of two codewords is the codeword of the difference. -/
theorem minimumDistanceIsAPropertyOfB : Obligations.MinimumDistanceIsAPropertyOfB := by
  intro b
  rw [P3_iff_weight_encodeData]
  refine ⟨fun h d1 d2 hne => ?_, fun h d hd => ?_⟩
  · rw [← encodeData_vecXor]
    exact h _ (mt (vecXor_eq_zero_iff d1 d2).mp hne)
  · have hdist := h d (zeroVec 12) hd
    rwa [encodeData_zeroVec, vecXor_zero] at hdist

/-- Settles O43: the difference is a codeword of weight at most 7. -/
theorem lowWeightVectorsAreToldApartBySyndrome : Obligations.LowWeightVectorsAreToldApartBySyndrome :=
  fun _ _ _ h1 h3 => eq_of_syndrome_eq h1 h3

end Sys2Proof.Machine
end

section
/-! PROOFS. What the decoder's error vectors are (43_decode.md R118 to R120, 45_properties.md R146 and R150): they are
light, they have the syndrome they were formed from, and under (P1) to (P3) they are the channel's errors. -/

namespace Sys2Proof.Machine

/-! ### The two shapes of error vectors and their syndromes -/

section Syndromes

variable {b : Mat 12 12}

/-- The error vector of `Direct` has the syndrome s, for every `B` (R120). -/
theorem syndrome_direct (b : Mat 12 12) (s : Vec 12) : syndrome b (concat (zeroVec 12) s) = s := by
  rw [syndrome_concat, vecMul_zero, zero_vecXor]

/-- So has the one of a column of the right search (R120). -/
theorem syndrome_right (b : Mat 12 12) (s : Vec 12) (j : Index) :
    syndrome b (concat (unitVector j) (candidate b s j)) = s := by
  rw [syndrome_concat, vecMul_unitVector, candidate, column_eq_row_transpose, vecXor_comm, vecXor_cancel_right]

theorem syndrome_directLeft (h1 : P1 b) (h2 : P2 b) (s : Vec 12) :
    syndrome b (concat (vecMul s b) (zeroVec 12)) = s := by
  rw [syndrome_of_symmetric h1, firstHalf_concat, secondHalf_concat, vecMul_twice h2, vecXor_zero]

theorem candidate_eq_of_symmetric (h1 : P1 b) (s : Vec 12) (j : Index) :
    candidate b s j = vecXor s (vecMul (unitVector j) b) := by
  rw [candidate, column_eq_row_of_symmetric h1, vecMul_unitVector]

theorem syndrome_left (h1 : P1 b) (h2 : P2 b) (s : Vec 12) (j : Index) :
    syndrome b (concat (candidate b (vecMul s b) j) (unitVector j)) = s := by
  rw [syndrome_of_symmetric h1, firstHalf_concat, secondHalf_concat, candidate_eq_of_symmetric h1, ← vecMul_vecXor,
    vecMul_twice h2, vecXor_cancel_right]

/-- The error vector of a column that a search accepts is light (R119). -/
theorem weight_right_le {s : Vec 12} {j : Index} (h : weight (candidate b s j) ≤ 2) :
    weight (concat (unitVector j) (candidate b s j)) ≤ 3 := by
  rw [weight_concat, weight_unitVector]
  omega

theorem weight_left_le {s2 : Vec 12} {j : Index} (h : weight (candidate b s2 j) ≤ 2) :
    weight (concat (candidate b s2 j) (unitVector j)) ≤ 3 := by
  rw [weight_concat, weight_unitVector]
  omega

theorem unitVector_injective {n : Nat} {j k : Fin n} (h : unitVector j = unitVector k) : j = k := by
  have hj := vec_ext_iff.mp h j
  simpa using hj

end Syndromes

/-! ### What `errpat` gives -/

section Errpat

variable {c : Config} {s : Vec 12} {e : Vec 24}

/-- No test of R103 to R110 succeeds on the syndrome s: `Direct`, the right search, `DirectLeft`, the left search. -/
def NothingFound (b : Mat 12 12) (s : Vec 12) : Prop :=
  3 < weight s ∧ (∀ k : Index, 2 < weight (candidate b s k)) ∧
    3 < weight (vecMul s b) ∧ ∀ k : Index, 2 < weight (candidate b (vecMul s b) k)

theorem nothingFound_of_errpat_eq_none (h : errpat c s = none) : NothingFound c.b s := by
  rcases errpat_cases c s with
    ⟨_, he⟩ | ⟨_, _, _, he⟩ | ⟨_, _, _, he⟩ | ⟨_, _, _, _, _, he⟩ | ⟨hdirect, hright, hdirect2, hleft, _⟩
  case inr.inr.inr.inr => exact ⟨hdirect, hright, hdirect2, hleft⟩
  all_goals cases he.symm.trans h

/-- An error vector that is formed has weight at most 3 (R119). -/
theorem weight_le_of_errpat_eq_some (h : errpat c s = some e) : weight e ≤ 3 := by
  rcases errpat_cases c s with
    ⟨hw, he⟩ | ⟨_, _, hj, he⟩ | ⟨_, _, hw, he⟩ | ⟨_, _, _, _, hj, he⟩ | ⟨_, _, _, _, he⟩ <;> rw [he] at h
  case inl =>
    cases h
    rwa [weight_concat, weight_zeroVec, Nat.zero_add]
  case inr.inl =>
    cases h
    exact weight_right_le hj
  case inr.inr.inl =>
    cases h
    rwa [weight_concat, weight_zeroVec]
  case inr.inr.inr.inl =>
    cases h
    exact weight_left_le hj
  case inr.inr.inr.inr =>
    cases hc : c.compatFallback <;> rw [hc] at h <;> cases h
    rw [weight_zeroVec]
    decide

/-- After `Direct` and the right search the error vector has the syndrome, for every `B` (R120). -/
theorem exists_errpat_of_right (c : Config) (h : weight s ≤ 3 ∨ ∃ k : Index, weight (candidate c.b s k) ≤ 2) :
    ∃ e, errpat c s = some e ∧ syndrome c.b e = s := by
  rcases errpat_cases c s with ⟨_, he⟩ | ⟨_, j, _, he⟩ | hnot | hnot | hnot
  case inl => exact ⟨_, he, syndrome_direct c.b s⟩
  case inr.inl => exact ⟨_, he, syndrome_right c.b s j⟩
  all_goals
    obtain ⟨hheavy, hnone, _⟩ := hnot
    rcases h with hlight | ⟨k, hk⟩
    · exact absurd hlight (Nat.not_le.mpr hheavy)
    · exact absurd hk (Nat.not_le.mpr (hnone k))

/-- With `B` symmetric and its own inverse, every error vector but the fallback's has the syndrome (R120). -/
theorem syndrome_of_errpat_eq_some (h1 : P1 c.b) (h2 : P2 c.b) (hc : c.compatFallback = false)
    (h : errpat c s = some e) : syndrome c.b e = s := by
  rcases errpat_cases c s with
    ⟨_, he⟩ | ⟨_, j, _, he⟩ | ⟨_, _, _, he⟩ | ⟨_, _, _, j, _, he⟩ | ⟨_, _, _, _, he⟩ <;> rw [he] at h
  case inl =>
    cases h
    exact syndrome_direct c.b s
  case inr.inl =>
    cases h
    exact syndrome_right c.b s j
  case inr.inr.inl =>
    cases h
    exact syndrome_directLeft h1 h2 s
  case inr.inr.inr.inl =>
    cases h
    exact syndrome_left h1 h2 s j
  case inr.inr.inr.inr =>
    rw [hc] at h
    cases h

/-- The same parameters with the fallback off: its `errpat` says whether a test has succeeded (R111). -/
abbrev withoutFallback (c : Config) : Config := { c with compatFallback := false }

/-- The fallback answers where nothing else does, and nowhere else (R113). -/
theorem errpat_eq_or (c : Config) (s : Vec 12) : errpat c s =
    (errpat (withoutFallback c) s).or (if c.compatFallback then some (zeroVec 24) else none) := by
  rcases Nat.lt_or_ge 3 (weight s) with h | h
  swap
  · rw [errpat_direct c s h, errpat_direct (withoutFallback c) s h, Option.some_or]
  rcases hM : matchSet (candidates c.b s) with _ | ⟨j, rest⟩
  swap
  · rw [errpat_right c s h j rest hM, errpat_right (withoutFallback c) s h j rest hM, Option.some_or]
  rcases Nat.lt_or_ge 3 (weight (vecMul s c.b)) with h2 | h2
  swap
  · rw [errpat_directLeft c s h hM h2, errpat_directLeft (withoutFallback c) s h hM h2, Option.some_or]
  rcases hj : firstLeft c.b (vecMul s c.b) with _ | j
  · rw [errpat_exhausted c s h hM h2 hj, errpat_exhausted (withoutFallback c) s h hM h2 hj]
    rfl
  · rw [errpat_searchLeft c s h hM h2 j hj, errpat_searchLeft (withoutFallback c) s h hM h2 j hj, Option.some_or]

theorem errpat_of_withoutFallback_some (h : errpat (withoutFallback c) s = some e) : errpat c s = some e := by
  rw [errpat_eq_or, h, Option.some_or]

theorem eq_zeroVec_of_withoutFallback_none (h : errpat (withoutFallback c) s = none) (he : errpat c s = some e) :
    e = zeroVec 24 := by
  rw [errpat_eq_or, h, Option.none_or] at he
  cases hc : c.compatFallback <;> rw [hc] at he <;> cases he
  rfl

end Errpat

/-! ### Light errors are found, and found exactly -/

section LightErrors

variable {b : Mat 12 12}

/-- The syndrome of at most three errors passes one of the four tests, by how many of them lie in the first half
(R150 item 2). -/
theorem not_nothingFound_of_light (h1 : P1 b) (h2 : P2 b) {u v : Vec 12} (h : weight u + weight v ≤ 3) :
    ¬ NothingFound b (vecXor (vecMul u b) v) := by
  rintro ⟨hdirect, hright, hdirect2, hleft⟩
  have hsecond : vecMul (vecXor (vecMul u b) v) b = vecXor u (vecMul v b) := by
    rw [vecMul_vecXor, vecMul_twice h2]
  rw [hsecond] at hdirect2 hleft
  obtain hu | hu | hu : weight u = 0 ∨ weight u = 1 ∨ 2 ≤ weight u := by omega
  · obtain rfl := (weight_eq_zero_iff u).mp hu
    rw [vecMul_zero, zero_vecXor] at hdirect
    omega
  · obtain ⟨j, rfl⟩ := exists_unitVector_of_weight_one u hu
    have hj := hright j
    rw [candidate_eq_of_symmetric h1, vecXor_comm _ v, vecXor_cancel_right] at hj
    omega
  obtain hv | hv : weight v = 0 ∨ weight v = 1 := by omega
  · obtain rfl := (weight_eq_zero_iff v).mp hv
    rw [vecMul_zero, vecXor_zero] at hdirect2
    omega
  · obtain ⟨j, rfl⟩ := exists_unitVector_of_weight_one v hv
    have hj := hleft j
    rw [candidate_eq_of_symmetric h1, vecXor_cancel_right] at hj
    omega

variable {c : Config} {e : Vec 24}

/-- Of at most three errors `errpat` gives just these errors (R150 items 2 and 3). -/
theorem errpat_syndrome_of_light (h1 : P1 c.b) (h2 : P2 c.b) (h3 : P3 c.b) (hw : weight e ≤ 3) :
    errpat c (syndrome c.b e) = some e := by
  rcases he : errpat (withoutFallback c) (syndrome c.b e) with _ | e'
  · have hnone := nothingFound_of_errpat_eq_none he
    rw [syndrome_of_symmetric h1] at hnone
    rw [weight_24] at hw
    exact absurd hnone (not_nothingFound_of_light h1 h2 hw)
  · have hsyndrome : syndrome c.b e' = syndrome c.b e :=
      syndrome_of_errpat_eq_some (c := withoutFallback c) h1 h2 rfl he
    have hw' := weight_le_of_errpat_eq_some he
    rw [errpat_of_withoutFallback_some he, eq_of_syndrome_eq h1 h3 hw' (by omega) hsyndrome]

/-- Of four errors it gives none: a lighter error vector would have the same syndrome (R150 item 5). -/
theorem errpat_syndrome_of_weight_four (h1 : P1 c.b) (h2 : P2 c.b) (h3 : P3 c.b) (hc : c.compatFallback = false)
    (hw : weight e = 4) : errpat c (syndrome c.b e) = none := by
  rcases he : errpat c (syndrome c.b e) with _ | e'
  · rfl
  · have hlight := weight_le_of_errpat_eq_some he
    have hsame := eq_of_syndrome_eq h1 h3 hlight (le_of_eq hw) (syndrome_of_errpat_eq_some h1 h2 hc he)
    rw [hsame] at hlight
    omega

/-- The channel's error alone determines the syndrome of the received word (R150). -/
theorem syndrome_channel_encodeData (h1 : P1 b) (d : Vec 12) (e : Vec 24) :
    syndrome b (channel e (encodeData b d)) = syndrome b e := by
  rw [channel, syndrome_vecXor, syndrome_encodeData h1, zero_vecXor]

end LightErrors

/-! ### The commands -/

section Commands

variable {payload : Payload} {s t : State}

/-- `ENC <12 digits>` answers the codeword of its digits (R95). -/
theorem exec_encOf (d : Vec 12) (s : State) : ∃ t, exec (encOf d) s = .next t ∧ t.work.status = .ok ∧
    t.work.out = encodeData s.config.b d := by
  obtain ⟨t, ht, _, _, hanswer⟩ := exec_answers (encOf d) s
  obtain ⟨hstatus, hout⟩ := Prod.mk.inj (hanswer.trans (answer_encOf s.config d))
  exact ⟨t, ht, hstatus, hout⟩

theorem exists_exec_dec (payload : Payload) (s : State) : ∃ t, exec (.dec 24#5 payload) s = .next t := by
  obtain ⟨t, ht, _⟩ := exec_answers (.dec 24#5 payload) s
  exact ⟨t, ht⟩

/-- With an error vector for its syndrome, a word is corrected with it (R114, R118). -/
theorem correctedFrom_of_errpat_some {e : Vec 24} (ht : exec (.dec 24#5 payload) s = .next t)
    (he : errpat s.config (syndrome s.config.b (receivedOperand payload)) = some e) : CorrectedFrom payload s e t := by
  obtain ⟨t', ht', ⟨e', he', hcorrected⟩ | ⟨hnone, _⟩⟩ := execDec_cases payload s
  · cases ht'.symm.trans ht
    cases he'.symm.trans he
    exact hcorrected
  · cases hnone.symm.trans he

/-- Without one, it is reported (R112, R118). -/
theorem uncorrectable_of_errpat_none (ht : exec (.dec 24#5 payload) s = .next t)
    (he : errpat s.config (syndrome s.config.b (receivedOperand payload)) = none) :
    t.work.status = .uncorrectable ∧ t.work.out = 0 := by
  obtain ⟨t', ht', ⟨_, he', _⟩ | ⟨_, _, rfl⟩⟩ := execDec_cases payload s
  · cases he'.symm.trans he
  · cases ht'.symm.trans ht
    exact ⟨rfl, rfl⟩

/-- An `OK` is a correction with `errpat` of the syndrome. -/
theorem exists_correctedFrom_of_ok (ht : exec (.dec 24#5 payload) s = .next t) (hok : t.work.status = .ok) :
    ∃ e, errpat s.config (syndrome s.config.b (receivedOperand payload)) = some e ∧ CorrectedFrom payload s e t := by
  rcases he : errpat s.config (syndrome s.config.b (receivedOperand payload)) with _ | e
  · exact absurd (hok.symm.trans (uncorrectable_of_errpat_none ht he).1) (by decide)
  · exact ⟨e, rfl, correctedFrom_of_errpat_some ht he⟩

theorem CorrectedFrom.error_eq {e : Vec 24} (h : CorrectedFrom payload s e t) : t.work.error = e := h.1.1

theorem CorrectedFrom.status_eq {e : Vec 24} (h : CorrectedFrom payload s e t) : t.work.status = .ok := by
  obtain ⟨⟨_, _, hstatus, _⟩, _⟩ := h
  exact hstatus

theorem CorrectedFrom.received_eq {e : Vec 24} (h : CorrectedFrom payload s e t) :
    t.work.received = receivedOperand payload := by
  obtain ⟨_, _, _, _, _, _, hreceived, _⟩ := h
  exact hreceived

theorem CorrectedFrom.corrected_eq {e : Vec 24} (h : CorrectedFrom payload s e t) :
    t.work.corrected = vecXor (receivedOperand payload) e := by
  obtain ⟨_, hcorrected, _⟩ := h.1
  rw [hcorrected, h.received_eq]

theorem CorrectedFrom.out_eq {e : Vec 24} (h : CorrectedFrom payload s e t) :
    t.work.out = (busOf (firstHalf (vecXor (receivedOperand payload) e))).setWidth 24 := by
  obtain ⟨_, _, _, hout, _⟩ := h.1
  rw [hout, h.corrected_eq]

/-- Correcting with an error vector of the word's own syndrome leaves syndrome zero (R120). -/
theorem corrected_of_syndrome_eq {e : Vec 24} (ht : exec (.dec 24#5 payload) s = .next t)
    (he : errpat s.config (syndrome s.config.b (receivedOperand payload)) = some e)
    (hsyndrome : syndrome s.config.b e = syndrome s.config.b (receivedOperand payload)) :
    t.work.status = .ok ∧ syndrome s.config.b t.work.corrected = zeroVec 12 := by
  have hcorrected := correctedFrom_of_errpat_some ht he
  refine ⟨hcorrected.status_eq, ?_⟩
  rw [hcorrected.corrected_eq, syndrome_vecXor, hsyndrome, vecXor_self]

end Commands

/-! ### The obligations -/

/-- Settles O26: the answer offered is that of the closed functions, and reading the encoded command gives it back. -/
theorem commandsComputeTheirFunctions : Obligations.CommandsComputeTheirFunctions := by
  intro i s
  obtain ⟨t, ht, hoff, _, hanswer⟩ := exec_answers i s
  refine ⟨t, ht, hoff, hanswer, ?_⟩
  rw [rsp_of_answer hanswer, response, decode_encode]

/-- Settles O36: the corrected word differs from the received one by the error vector, which is light. -/
theorem errorVectorsHaveWeightAtMostThree : Obligations.ErrorVectorsHaveWeightAtMostThree := by
  intro payload s
  obtain ⟨t, ht⟩ := exists_exec_dec payload s
  refine ⟨t, ht, fun hok => ?_⟩
  obtain ⟨e, he, hcorrected⟩ := exists_correctedFrom_of_ok ht hok
  rw [hcorrected.error_eq, hcorrected.received_eq, hcorrected.corrected_eq, vecXor_cancel_left, and_self]
  exact weight_le_of_errpat_eq_some he

/-- Settles O37: but for the fallback, the error vector has the syndrome of the received word. -/
theorem correctedWordsHaveSyndromeZero : Obligations.CorrectedWordsHaveSyndromeZero := by
  intro payload s b syn
  obtain ⟨t, ht⟩ := exists_exec_dec payload s
  refine ⟨t, ht, fun hright => ?_, fun h1 h2 hfound => ?_, fun hnone hok => ?_⟩
  · obtain ⟨e, he, hsyndrome⟩ := exists_errpat_of_right s.config hright
    obtain ⟨hok, hzero⟩ := corrected_of_syndrome_eq ht he hsyndrome
    exact ⟨hok, hzero, fun h1 => eq_encodeData_of_syndrome_zero h1 hzero⟩
  · obtain ⟨e, he⟩ := Option.ne_none_iff_exists'.mp hfound
    have hsyndrome : syndrome b e = syn :=
      syndrome_of_errpat_eq_some (c := withoutFallback s.config) h1 h2 rfl he
    obtain ⟨hok, hzero⟩ := corrected_of_syndrome_eq ht (errpat_of_withoutFallback_some he) hsyndrome
    exact ⟨hok, hzero, eq_encodeData_of_syndrome_zero h1 hzero⟩
  · obtain ⟨e, he, hcorrected⟩ := exists_correctedFrom_of_ok ht hok
    obtain rfl := eq_zeroVec_of_withoutFallback_none hnone he
    obtain ⟨hheavy, _⟩ : NothingFound b syn :=
      nothingFound_of_errpat_eq_none (c := withoutFallback s.config) hnone
    rw [hcorrected.received_eq, hcorrected.corrected_eq, vecXor_zero]
    refine ⟨rfl, fun hzero => ?_⟩
    rw [show syn = zeroVec 12 from hzero, weight_zeroVec] at hheavy
    omega

/-- Settles O38: both commands end as `errpat` of the one syndrome says. -/
theorem errorVectorIsAFunctionOfTheSyndrome : Obligations.ErrorVectorIsAFunctionOfTheSyndrome := by
  intro payload payload' s s' hconfig hsyndrome
  obtain ⟨t, ht⟩ := exists_exec_dec payload s
  obtain ⟨t', ht'⟩ := exists_exec_dec payload' s'
  have hsame : errpat s'.config (syndrome s'.config.b (receivedOperand payload'))
      = errpat s.config (syndrome s.config.b (receivedOperand payload)) := by rw [← hconfig, hsyndrome]
  refine ⟨t, t', ht, ht', ?_⟩
  rcases he : errpat s.config (syndrome s.config.b (receivedOperand payload)) with _ | e
  · have hstatus := (uncorrectable_of_errpat_none ht he).1
    have hstatus' := (uncorrectable_of_errpat_none ht' (hsame.trans he)).1
    rw [hstatus, hstatus']
    exact ⟨rfl, fun hok => nomatch hok⟩
  · have hcorrected := correctedFrom_of_errpat_some ht he
    have hcorrected' := correctedFrom_of_errpat_some ht' (hsame.trans he)
    rw [hcorrected.status_eq, hcorrected'.status_eq, hcorrected.error_eq, hcorrected'.error_eq]
    exact ⟨rfl, fun _ => ⟨rfl, rfl⟩⟩

/-- Settles O40: the error vector found is the channel's error, and taking it away leaves the codeword. -/
theorem upToThreeErrorsAreCorrected : Obligations.UpToThreeErrorsAreCorrected := by
  intro s s' d e h1 h2 h3 hb hw
  obtain ⟨t, ht, hstatus, hout⟩ := exec_encOf d s
  obtain ⟨t', ht'⟩ := exists_exec_dec (channel e t.work.out) s'
  rw [← hb] at h1 h2 h3 hout
  have he : errpat s'.config (syndrome s'.config.b (receivedOperand (channel e t.work.out))) = some e := by
    rw [hout]
    exact (congrArg (errpat s'.config) (syndrome_channel_encodeData h1 d e)).trans
      (errpat_syndrome_of_light h1 h2 h3 hw)
  have hcorrected := correctedFrom_of_errpat_some ht' he
  have hword : vecXor (receivedOperand (channel e t.work.out)) e = encodeData s'.config.b d := by
    rw [hout]
    exact vecXor_cancel_right _ e
  refine ⟨t, t', ht, hstatus, ht', hcorrected.status_eq, hcorrected.error_eq, ?_⟩
  rw [hcorrected.out_eq, hword, firstHalf_encodeData]

/-- Settles O41: no error vector is found for the syndrome of four errors. -/
theorem fourErrorsAreDetected : Obligations.FourErrorsAreDetected := by
  intro s s' d e h1 h2 h3 hb hc hw
  obtain ⟨t, ht, hstatus, hout⟩ := exec_encOf d s
  obtain ⟨t', ht'⟩ := exists_exec_dec (channel e t.work.out) s'
  rw [← hb] at h1 h2 h3 hout
  have he : errpat s'.config (syndrome s'.config.b (receivedOperand (channel e t.work.out))) = none := by
    rw [hout]
    exact (congrArg (errpat s'.config) (syndrome_channel_encodeData h1 d e)).trans
      (errpat_syndrome_of_weight_four h1 h2 h3 hc hw)
  obtain ⟨hstatus', hout'⟩ := uncorrectable_of_errpat_none ht' he
  exact ⟨t, t', ht, hstatus, ht', hstatus', hout'⟩

/-- Settles O44: two matching columns would give two light error vectors of one syndrome. -/
theorem searchesHaveAtMostOneMatch : Obligations.SearchesHaveAtMostOneMatch := by
  intro b s j k h1 h3
  refine ⟨fun hj hk => ?_, fun h2 hj hk => ?_⟩
  · have hsame := eq_of_syndrome_eq h1 h3 (weight_right_le hj) (le_trans (weight_right_le hk) (by decide))
      ((syndrome_right b s j).trans (syndrome_right b s k).symm)
    have hfirst := congrArg firstHalf hsame
    rw [firstHalf_concat, firstHalf_concat] at hfirst
    exact unitVector_injective hfirst
  · have hsame := eq_of_syndrome_eq h1 h3 (weight_left_le hj) (le_trans (weight_left_le hk) (by decide))
      ((syndrome_left h1 h2 s j).trans (syndrome_left h1 h2 s k).symm)
    have hsecond := congrArg secondHalf hsame
    rw [secondHalf_concat, secondHalf_concat] at hsecond
    exact unitVector_injective hsecond

end Sys2Proof.Machine
end
